-- ==== Sys2Proof/Word.lean ====
section
/-!
DEFINITION. The word types of the ibm_se core: the widths the spec gives what it treats as bits.
-/
namespace Sys2Proof

/-- One byte: a storage cell, `imm8`, the MODE and ENABLE registers (spec/10_state.md R21, R34, R36). -/
abbrev Byte := BitVec 8

/-- Sixteen bits: a command word (R81), a `ReceiveByte` answer (R91), the DIVISOR register (R35). -/
abbrev Half := BitVec 16

/-- A `SendByte` status: 0 success, 1 not-ready, 2 error, 3 reserved (R94). -/
abbrev Status := BitVec 2

end Sys2Proof
end

