-- ==== Sys2Proof/Config.lean ====
section
/-!
DEFINITION. What an implementation fixes (the parameters of spec/00_scope.md R8 to R13) and the free values: constants
without a body, which nothing in Lean can evaluate, one for each value the spec leaves open.
-/
namespace Sys2Proof

/-- Which physical transport the queue's consumer side is wired to (R13). No rule reads it (R249). -/
inductive Sink where
  | usb
  | uart
  deriving DecidableEq, Repr

/-- Where `DivisorOf` comes from (R12): the default body of R180 with its clock `F_CLK` in hertz, or the deployment's
own function, of which nothing is known (`Config.deploymentDivisor`). -/
inductive DivisorFormula where
  | usart (fClk : Nat)
  | deployment
  deriving DecidableEq, Repr

/-- The parameters of R8 to R13, fixed for the machine (R42). -/
structure Params where
  /-- `N`, R8. -/
  capacity : Nat
  /-- `CHUNK_LIMIT`, R9. -/
  chunkLimit : Nat
  /-- `M_PAR_ODD`, R10. -/
  mParOdd : Byte
  /-- `M_PAR_EVEN`, R10. -/
  mParEven : Byte
  /-- `M_STOP2`, R10. -/
  mStop2 : Byte
  /-- `M_DATA6`, R10. -/
  mData6 : Byte
  /-- `M_DATA7`, R10. -/
  mData7 : Byte
  /-- `E_RXIE`, R11. -/
  eRxie : Byte
  /-- `E_TXEN`, R11. -/
  eTxen : Byte
  /-- `E_RXEN`, R11. -/
  eRxen : Byte
  /-- `DivisorOf` and its `F_CLK`, R12. -/
  divisor : DivisorFormula
  /-- `SINK`, R13. -/
  sink : Sink
  deriving DecidableEq, Repr

/-- The parameters the vectors of spec/95_test_vectors.md use: default masks (R103, R106), the default `DivisorOf` with
`F_CLK` 16000000, and `N` 4, `CHUNK_LIMIT` 3 as in programs P2 and P4. DESIGN CHOICE, unsafe (log 2): the spec leaves N,
CHUNK_LIMIT, F_CLK and SINK open. -/
def Config.vectorParams : Params where
  capacity := 4
  chunkLimit := 3
  mParOdd := 0x30
  mParEven := 0x20
  mStop2 := 0x08
  mData6 := 0x02
  mData7 := 0x04
  eRxie := 0x80
  eTxen := 0x08
  eRxen := 0x10
  divisor := .usart 16000000
  sink := .usb

/-- `DOUBLE_SPEED`: "double-speed is always enabled in this design" (R12, R38). -/
def Config.doubleSpeed : Bool := true

/-- The deployment's own `DivisorOf` (R12, R179): total, dependent on its two arguments alone, nothing else known. -/
opaque Config.deploymentDivisor : Bool → Nat → Nat

/-- The byte a read of an unwritten storage cell gives, fresh at each read (R52, U4; log 7). -/
opaque Config.freeCell : Nat → Byte

/-- The divisor where the default body has no natural value (R180, U6; log 3). -/
opaque Config.freeDivisor : Nat → Half

/-- A `ReceiveByte` answer the inputs do not list (R91, R141, U19; log 9). -/
opaque Config.freeReceive : Nat → Half

/-- An `IsSendReady` answer the inputs do not list (R95, R141, U19; log 9). -/
opaque Config.freeReady : Nat → Bool

/-- A `SendByte` answer the inputs do not list (R94, R141, U19; log 9). -/
opaque Config.freeStatus : Nat → Status

/-- How many phases the relay runs before the oldest waiting notification is handled, where the inputs do not say: any
number, and never forever (R214, R253, U18; log 11). -/
opaque Config.freeWait : Nat → Nat

/-- `rxr` after the phase that used it (R31, U8; log 6). -/
opaque Config.deadRxr : Nat → Half

/-- `queued`, `quota` and `i` (numbers 0, 1, 2) after the phase that used them (R31, U8; log 6). -/
opaque Config.deadCount : Nat → Nat → Nat

/-- `ready` after the phase that used it (R31, U8; log 6). -/
opaque Config.deadReady : Nat → Bool

/-- `b` after the phase that used it (R31, U8; log 6). -/
opaque Config.deadByte : Nat → Byte

/-- `st` after the phase that used it (R31, U8; log 6). -/
opaque Config.deadStatus : Nat → Status

/-- Storage cell number `i` after a fault (R203, U5; log 16): a byte, or unwritten. -/
opaque Config.faultCell : Nat → Nat → Option Byte

/-- `rd`, `wr` and `count` (numbers 0, 1, 2) after a fault (R203, U5; log 16). -/
opaque Config.faultCursor : Nat → Nat → Nat

end Sys2Proof
end

