-- ==== Sys2Proof/Syntax.lean ====
section
/-!
DEFINITION. The operation set: the eleven rows of spec/opcode_table.json, in the order of spec/30_encoding.md R82.
-/
namespace Sys2Proof

/-- The eleven operations (R82). QINSERT carries its `imm8` (R84). QINIT's `capacity`, SETLINE's `LE` record and the
environment's answers are not in the command word (R85): the state holds them. -/
inductive Instr where
  /-- `Init(capacity)`, R120. -/
  | qinit
  /-- `IsFull() -> bool`, R121. -/
  | qisfull
  /-- `IsEmpty() -> bool`, R122. -/
  | qisempty
  /-- `GetCount() -> integer`, R123. -/
  | qcount
  /-- `Insert(byte)`, R124. -/
  | qinsert (v : Byte)
  /-- `Remove() -> byte`, R125. -/
  | qremove
  /-- `Peek() -> byte`, R126. -/
  | qpeek
  /-- Relay phase 0, R143. -/
  | ingress
  /-- Relay phase 1, R147. -/
  | egress
  /-- Relay phase 2, R154. -/
  | housekeep
  /-- The `LineEncodingChanged` handler, R172. -/
  | setline
  deriving DecidableEq, Repr

end Sys2Proof
end

