-- ==== Sys2Proof/WellFormed.lean ====
section
/-!
DEFINITION. What is well formed: every operation of R82 with every operand (R84), and the constraints R8 to R11 put on
the parameters.
-/
namespace Sys2Proof

/-- Every operation is well formed: QINSERT's 256 operand values are all legal ("raw bytes", R84) and no other operation
has an operand. -/
def Instr.wellFormed : Instr → Bool
  | .qinit => true
  | .qisfull => true
  | .qisempty => true
  | .qcount => true
  | .qinsert _ => true
  | .qremove => true
  | .qpeek => true
  | .ingress => true
  | .egress => true
  | .housekeep => true
  | .setline => true

/-- How many bits of a mask are set. -/
def Params.bitCount (m : Byte) : Nat := ((List.range 8).filter fun k => m.getLsbD k).length

/-- R8 and R9: `N >= 1` and `CHUNK_LIMIT >= 1`. -/
def Params.sizesOk (p : Params) : Bool := decide (1 ≤ p.capacity) && decide (1 ≤ p.chunkLimit)

/-- R10: how many bits each MODE mask has, M_DATA6 and M_DATA7 different, and the three groups pairwise disjoint (D36). -/
def Params.modeMasksOk (p : Params) : Bool :=
  Params.bitCount p.mParOdd == 2 && Params.bitCount p.mParEven == 1 && Params.bitCount p.mStop2 == 1 &&
  Params.bitCount p.mData6 == 1 && Params.bitCount p.mData7 == 1 && p.mData6 != p.mData7 &&
  (p.mParOdd ||| p.mParEven) &&& p.mStop2 == 0 &&
  (p.mParOdd ||| p.mParEven) &&& (p.mData6 ||| p.mData7) == 0 &&
  p.mStop2 &&& (p.mData6 ||| p.mData7) == 0

/-- R11: each ENABLE mask has one bit and no two are the same. -/
def Params.enableMasksOk (p : Params) : Bool :=
  Params.bitCount p.eRxie == 1 && Params.bitCount p.eTxen == 1 && Params.bitCount p.eRxen == 1 &&
  p.eRxie != p.eTxen && p.eRxie != p.eRxen && p.eTxen != p.eRxen

/-- The parameters are ones R8 to R11 allow. -/
def Params.wf (p : Params) : Bool := p.sizesOk && p.modeMasksOk && p.enableMasksOk

end Sys2Proof
end

