-- ==== Sys2Proof/Decode.lean ====
section
/-!
DEFINITION. The command word of spec/30_encoding.md: its fields (R81), the decoder, total on all 65536 words (R83) and
rejecting each class of reserved word by name (R87), the encoder, and the operation table of R82 as rows of match and
mask; the mnemonics and the assembler line of R108.
-/
namespace Sys2Proof

/-- Why a word is reserved: the classes of R87. -/
inductive Reserved where
  /-- `fam` is 3 .. 15. -/
  | family
  /-- `fn` is outside its family's range. -/
  | function
  /-- A format `Z` operation with `imm8` not 0. -/
  | operand
  deriving DecidableEq, Repr

/-- `fam = w[15:12]` (R81). -/
def famField (w : Half) : BitVec 4 := w.extractLsb' 12 4

/-- `fn = w[11:8]` (R81). -/
def fnField (w : Half) : BitVec 4 := w.extractLsb' 8 4

/-- `imm8 = w[7:0]` (R81, R84). -/
def imm8Field (w : Half) : Byte := w.extractLsb' 0 8

/-- A format `Z` operation: `imm8 = 0x00` is required (R81, R87). -/
def decodeZ (w : Half) (i : Instr) : Except Reserved Instr :=
  if imm8Field w = 0 then .ok i else .error .operand

/-- Family 0, the queue operations (R82). -/
def decodeQueue (w : Half) : Except Reserved Instr :=
  match (fnField w).toNat with
  | 0 => decodeZ w .qinit
  | 1 => decodeZ w .qisfull
  | 2 => decodeZ w .qisempty
  | 3 => decodeZ w .qcount
  | 4 => .ok (.qinsert (imm8Field w))
  | 5 => decodeZ w .qremove
  | 6 => decodeZ w .qpeek
  | _ => .error .function

/-- Family 1, the relay phases (R82). -/
def decodeRelay (w : Half) : Except Reserved Instr :=
  match (fnField w).toNat with
  | 0 => decodeZ w .ingress
  | 1 => decodeZ w .egress
  | 2 => decodeZ w .housekeep
  | _ => .error .function

/-- Family 2, the line-encoding handler (R82). -/
def decodeLine (w : Half) : Except Reserved Instr :=
  match (fnField w).toNat with
  | 0 => decodeZ w .setline
  | _ => .error .function

/-- The decoder (R83): total, looks at no state, and a word that matches no row of R82 is reserved (R87). -/
def decode (w : Half) : Except Reserved Instr :=
  match (famField w).toNat with
  | 0 => decodeQueue w
  | 1 => decodeRelay w
  | 2 => decodeLine w
  | _ => .error .family

/-- A command word from its three fields (R81). -/
def commandWord (fam fn : BitVec 4) (imm8 : Byte) : Half := fam ++ fn ++ imm8

/-- The word of an operation (R82). -/
def encode : Instr → Half
  | .qinit => commandWord 0 0 0
  | .qisfull => commandWord 0 1 0
  | .qisempty => commandWord 0 2 0
  | .qcount => commandWord 0 3 0
  | .qinsert v => commandWord 0 4 v
  | .qremove => commandWord 0 5 0
  | .qpeek => commandWord 0 6 0
  | .ingress => commandWord 1 0 0
  | .egress => commandWord 1 1 0
  | .housekeep => commandWord 1 2 0
  | .setline => commandWord 2 0 0

/-- The mnemonic of R82. -/
def Instr.mnemonic : Instr → String
  | .qinit => "QINIT"
  | .qisfull => "QISFULL"
  | .qisempty => "QISEMPTY"
  | .qcount => "QCOUNT"
  | .qinsert _ => "QINSERT"
  | .qremove => "QREMOVE"
  | .qpeek => "QPEEK"
  | .ingress => "INGRESS"
  | .egress => "EGRESS"
  | .housekeep => "HOUSEKEEP"
  | .setline => "SETLINE"

/-- One row of R82: a word `w` selects it when `w & mask == bits` (the table calls the bits `match`). -/
structure OpRow where
  mnemonic : String
  bits : Half
  mask : Half
  deriving DecidableEq, Repr

/-- The eleven rows of R82 as the table of spec/opcode_table.json writes them. -/
def opRows : List OpRow :=
  [⟨"QINIT", 0x0000, 0xFFFF⟩, ⟨"QISFULL", 0x0100, 0xFFFF⟩, ⟨"QISEMPTY", 0x0200, 0xFFFF⟩,
   ⟨"QCOUNT", 0x0300, 0xFFFF⟩, ⟨"QINSERT", 0x0400, 0xFF00⟩, ⟨"QREMOVE", 0x0500, 0xFFFF⟩,
   ⟨"QPEEK", 0x0600, 0xFFFF⟩, ⟨"INGRESS", 0x1000, 0xFFFF⟩, ⟨"EGRESS", 0x1100, 0xFFFF⟩,
   ⟨"HOUSEKEEP", 0x1200, 0xFFFF⟩, ⟨"SETLINE", 0x2000, 0xFFFF⟩]

/-- `w` selects the row (R82). -/
def OpRow.selects (r : OpRow) (w : Half) : Bool := w &&& r.mask == r.bits

/-- The rows a word selects. -/
def rowsOf (w : Half) : List OpRow := opRows.filter fun r => r.selects w

/-- The command word whose bits are the low `nbits` of `w`, as the table numbers them. -/
def tableWord (nbits w : Nat) : Half := BitVec.ofNat 16 (w % 2 ^ nbits)

/-- What the decoder reads from a table row's bits; none where the word is reserved. -/
def decodeTableWord (nbits w : Nat) : Option Instr :=
  match decode (tableWord nbits w) with
  | .ok i => some i
  | .error _ => none

/-- One hexadecimal digit. -/
def hexDigit (n : Nat) : String :=
  if n < 10 then (Char.ofNat (48 + n)).toString else (Char.ofNat (55 + n)).toString

/-- A byte as R108 writes it, `0x..`. -/
def hexByte (v : Byte) : String := "0x" ++ hexDigit (v.toNat / 16) ++ hexDigit (v.toNat % 16)

/-- The assembler line of an operation (R108), without the record that stands beside SETLINE. -/
def Instr.assembly (i : Instr) : String :=
  match i with
  | .qinsert v => i.mnemonic ++ " " ++ hexByte v
  | .qinit => i.mnemonic
  | .qisfull => i.mnemonic
  | .qisempty => i.mnemonic
  | .qcount => i.mnemonic
  | .qremove => i.mnemonic
  | .qpeek => i.mnemonic
  | .ingress => i.mnemonic
  | .egress => i.mnemonic
  | .housekeep => i.mnemonic
  | .setline => i.mnemonic

/-- The pseudo-operation ITER (R109 (b)): one iteration of the relay loop. -/
def iterWords : List Half := [encode .ingress, encode .egress, encode .housekeep]

end Sys2Proof
end

