-- ==== Sys2Proof/Machine/State.lean ====
section
/-!
DEFINITION. The state of the ibm_se core (spec/10_state.md), the reasons a step can stop (spec/60_exceptions.md R203,
R207) and the state after reset (R44, R230 to R232).
-/
namespace Sys2Proof.Machine

open Sys2Proof

/-- The line-encoding record `LE` (R33, R100). Every value of every field is a legal input (R101). -/
structure LineEncoding where
  baud : BitVec 32
  parity : Byte
  stop : Byte
  databits : Byte
  deriving DecidableEq, Repr

/-- The phase the relay loop executes next (R30). -/
inductive Phase where
  | ingress
  | egress
  | housekeep
  deriving DecidableEq, Repr

/-- The two states of the handler (R37, R171). -/
inductive HandlerState where
  | idle
  | reconfiguring
  deriving DecidableEq, Repr

/-- One write of a configuration register, with a value of the register's width (R57). -/
inductive RegWrite where
  | mode (v : Byte)
  | divisor (v : Half)
  | enable (v : Byte)
  deriving DecidableEq, Repr

/-- What the trace holds (R18): an environment call with its argument and its answer, or a register write. -/
inductive Event where
  | receiveByte (answer : Half)
  | isSendReady (answer : Bool)
  | sendByte (b : Byte) (status : Status)
  | periodicTask
  | regWrite (w : RegWrite)
  deriving DecidableEq, Repr

/-- What an operation returned (R86). -/
inductive Result where
  | bit (b : Bool)
  | count (n : Nat)
  | byte (v : Byte)
  deriving DecidableEq, Repr

/-- A connection lifecycle notification (R98, R212). -/
inductive Lifecycle where
  | connect
  | disconnect
  | configured
  | controlRequest
  deriving DecidableEq, Repr

/-- What the USB collaborator delivers to the core (R97, R98). -/
inductive Notice where
  | lineEncodingChanged (le : LineEncoding)
  | lifecycle (k : Lifecycle)
  deriving DecidableEq, Repr

/-- Which agent takes the next step of the deployed core, where both may (R214). -/
inductive Turn where
  | relay
  | notice
  deriving DecidableEq, Repr

/-- What is presented to the core for one step from outside its own loop. -/
inductive Command where
  /-- A command word (R80), with the `LE` record beside it where there is one (R85 (b)). -/
  | word (w : Half) (le : Option LineEncoding)
  /-- The QUEUE pins `push` (with `push_data`) and `pop` in one step (R111). -/
  | pins (push : Option Byte) (pop : Bool)
  deriving DecidableEq, Repr

/-- A fault record (R203). -/
inductive Fault where
  /-- Code 1. Raised by QINSERT, and by a `push`, when `count == N`: the byte, and `rd`, `wr`, `count` at the call. Safe:
  the spec gives this very fault (R204), and no state after it. -/
  | queueOverflow (v : Byte) (rd wr count : Nat)
  /-- Code 2. Raised by QREMOVE, and by a `pop`, when `count == 0`: `rd`, `wr` at the call. Safe: the spec gives this very
  fault (R205), and no state after it. -/
  | queueUnderflow (rd wr : Nat)
  /-- Raised by a storage access at an index that is no cell of the store (R54: it cannot occur). Only states that break
  the cursor invariant of R25 reach it. Safe: the run stops (log 17). -/
  | noSuchCell (index : Nat) (capacity : Nat)
  deriving DecidableEq, Repr

/-- Why the spec gives what was asked no meaning (R207). -/
inductive Refusal where
  /-- A reserved command word, raised by the fetch (R208). Safe: nothing is done. -/
  | illegalOp (w : Half)
  /-- Two queue operations in one step, raised by the fetch (R209). Safe: nothing is done. -/
  | concurrentQueueOp
  /-- A second QINIT in one run, raised by QINIT (R120). Safe: nothing is done. -/
  | reinitRefused
  /-- A relay command word whose phase is not the current one, raised by INGRESS, EGRESS and HOUSEKEEP (R161). Safe:
  nothing is done. -/
  | outOfPhase
  /-- A step asked of a run that a refusal has ended, raised by the step (R207: "the run says nothing from there on").
  Safe: nothing is done (log 16). -/
  | alreadyRefused
  /-- An instruction that has no meaning in this model, raised by an arm of `exec`. Safe: nothing is done. -/
  | notModelled (mnemonic : String)
  deriving DecidableEq, Repr

/-- The backing store (R21) as a list of written cells, index and byte, indices strictly rising. A cell that is not listed
is unwritten. -/
abbrev Memory := List Host.Cell

/-- QUEUE (R21 to R24). -/
structure Queue where
  storage : Memory
  rd : Nat
  wr : Nat
  count : Nat
  deriving DecidableEq, Repr

/-- The working registers of a phase (R31). -/
structure Working where
  /-- `rxr`. -/
  rxr : Half
  /-- `queued`. -/
  queued : Nat
  /-- `ready`. -/
  ready : Bool
  /-- `quota`. -/
  quota : Nat
  /-- `i`. -/
  sent : Nat
  /-- `b`. -/
  head : Byte
  /-- `st`. -/
  status : Status
  deriving DecidableEq, Repr

/-- The LINECFG registers (R34 to R37). -/
structure Line where
  /-- `MODE`. -/
  mode : Byte
  /-- `DIVISOR`. -/
  divisor : Half
  /-- `ENABLE`. -/
  enable : Byte
  hstate : HandlerState
  deriving DecidableEq, Repr

/-- The bookkeeping of R39 and R40. -/
structure Book where
  faults : List Fault
  refused : Bool
  inited : Bool
  deriving DecidableEq, Repr

/-- What the environment and whoever presents commands have in store for the core: inputs of the steps, not state of the
core (R42, R85), held here because a step is a function of the state alone (log 9, 10, 11, 13). -/
structure Inputs where
  /-- Commands not yet presented, the next first. Empty: the deployed core runs its own loop (R140). -/
  program : List Command
  /-- The `LE` snapshot that stands beside the operation (R85 (b), R110). -/
  le : LineEncoding
  /-- Notifications delivered and not yet handled, and those still to be delivered, oldest first (R97). None arrives but
  these: DESIGN CHOICE, unsafe (log 27). -/
  notices : List Notice
  /-- Who goes first where both agents may (R214). -/
  turns : List Turn
  /-- Answers of `ReceiveByte` (R91). -/
  rxIn : List Half
  /-- Answers of `IsSendReady` (R95). -/
  readyIn : List Bool
  /-- Answers of `SendByte` (R94). -/
  sendIn : List Status
  deriving DecidableEq, Repr

/-- The machine. -/
structure State where
  /-- The parameters (R8 to R13): read by the rules, written by none (R42; log 1). -/
  params : Params
  queue : Queue
  /-- `phase` (R30). -/
  phase : Phase
  work : Working
  line : Line
  book : Book
  inputs : Inputs
  /-- The trace of the run so far (R18), oldest event first. -/
  trace : List Event
  /-- What the last operation returned, none where it returns nothing (R86). -/
  result : Option Result
  /-- How many free values have been taken: the model's own counter, not the spec's (log 8). -/
  draws : Nat
  deriving DecidableEq, Repr

/-- No input waits. The `LE` port reads all zero (log 13). With no notification listed none ever arrives: the spec leaves
their number and times to the environment (R42, R214, R251), and an end of the list is a DESIGN CHOICE, unsafe (log 27). -/
def Inputs.none : Inputs where
  program := []
  le := ⟨0, 0, 0, 0⟩
  notices := []
  turns := []
  rxIn := []
  readyIn := []
  sendIn := []

/-- The state after reset of a machine with the parameters `p` (R44, R230 to R232). The working registers, MODE, DIVISOR
and ENABLE have no reset value in the spec; zero is a DESIGN CHOICE, unsafe (log 4, log 5). -/
def State.resetWith (p : Params) : State where
  params := p
  queue := ⟨[], 0, 0, 0⟩
  phase := .ingress
  work := ⟨0, 0, false, 0, 0, 0, 0⟩
  line := ⟨0, 0, 0, .idle⟩
  book := ⟨[], false, true⟩
  inputs := Inputs.none
  trace := []
  result := .none
  draws := 0

/-- The machine right after reset (R230). The parameters are those of the spec's test vectors (log 2). -/
def State.reset : State := State.resetWith Config.vectorParams

/-- The state before the QINIT that reset performs (R231): `inited = false`, everything else as after reset. -/
def State.preInit (p : Params) : State := { State.resetWith p with book := ⟨[], false, false⟩ }

end Sys2Proof.Machine
end

