-- ==== Sys2Proof/Machine/Flags.lean ====
section
/-!
DEFINITION. The two flags of QUEUE (spec/10_state.md R28): functions of `count`, with no storage of their own.
-/
namespace Sys2Proof.Machine

/-- `full = (count == N)` (R28): the backpressure signal toward the producer. -/
def isFull (s : State) : Bool := s.queue.count == s.params.capacity

/-- `empty = (count == 0)` (R28). -/
def isEmpty (s : State) : Bool := s.queue.count == 0

end Sys2Proof.Machine
end

