-- ==== Sys2Proof/Machine/Ops.lean ====
section
/-!
DEFINITION. The named operations over the state: the backing store (spec/20_memory.md R50 to R54), the cursors, the
trace, the free values, the queue operations the instructions share (spec/40_queue_ops.md), and what a fault or a
refusal does (spec/60_exceptions.md R203, R207). The core has no trap, no vector and no return (R213, R215): raising a
fault is this machine's whole exception entry.
-/
namespace Sys2Proof.Machine

open Sys2Proof

/-! ## The parts of the state, written whole -/

/-- The state with another QUEUE. -/
def State.withQueue (s : State) (q : Queue) : State := { s with queue := q }

/-- The state with another `phase`: the core's `pc <- target` (R16, R30). -/
def State.withPhase (s : State) (p : Phase) : State := { s with phase := p }

/-- The state with other working registers. -/
def State.withWork (s : State) (w : Working) : State := { s with work := w }

/-- The state with other LINECFG registers. -/
def State.withLine (s : State) (l : Line) : State := { s with line := l }

/-- The state with other bookkeeping. -/
def State.withBook (s : State) (b : Book) : State := { s with book := b }

/-- The state with other inputs. -/
def State.withInputs (s : State) (i : Inputs) : State := { s with inputs := i }

/-- The operation's result (R86): `none` for an operation that returns nothing. -/
def State.returns (s : State) (r : Option Result) : State := { s with result := r }

/-- One more event at the end of the trace (R18). -/
def State.record (s : State) (e : Event) : State := { s with trace := s.trace ++ [e] }

/-- One more free value has been taken (log 8). -/
def State.tick (s : State) : State := { s with draws := s.draws + 1 }

/-! ## The backing store -/

/-- What a cell that is not listed reads as: nothing, it is unwritten (R21, R44). -/
def Memory.unlisted : Option Byte := none

/-- The cell at an index (R21): its byte, or nothing where it is unwritten. -/
def Memory.read : Memory → Nat → Option Byte
  | [], _ => Memory.unlisted
  | (a, v) :: m, i => if a = i then some v else Memory.read m i

/-- `storage[i] <- v` (R53), keeping the indices strictly rising. No byte equals what an unlisted cell reads as, so a write
always lists its cell. -/
def Memory.write : Memory → Nat → Byte → Memory
  | [], i, v => [(i, v)]
  | (a, u) :: m, i, v =>
    if i < a then (i, v) :: (a, u) :: m
    else if i = a then (i, v) :: m
    else (a, u) :: Memory.write m i v

/-- The indices of a store rise strictly from above `low`. -/
def Memory.risesFrom : Option Nat → Memory → Bool
  | _, [] => true
  | none, (a, _) :: m => Memory.risesFrom (some a) m
  | some low, (a, _) :: m => decide (low < a) && Memory.risesFrom (some a) m

/-- The canonical form: indices strictly rising, and no entry equal to what an unlisted cell reads as. -/
def Memory.wf (m : Memory) : Bool :=
  Memory.risesFrom none m && m.all fun c => decide (some c.2 ≠ Memory.unlisted)

/-- `MemRead(i, 1)` (R52): the cell's byte, a free byte where the cell is unwritten; an index that is no cell faults
(R54). -/
def memRead (s : State) (i : Nat) : Except Fault (Byte × State) :=
  if i < s.params.capacity then
    match s.queue.storage.read i with
    | some v => .ok (v, s)
    | none => .ok (Config.freeCell s.draws, s.tick)
  else .error (.noSuchCell i s.params.capacity)

/-- `MemWrite(i, 1, v)` (R53); an index that is no cell faults (R54). -/
def memWrite (s : State) (i : Nat) (v : Byte) : Except Fault State :=
  if i < s.params.capacity then
    .ok (s.withQueue { s.queue with storage := s.queue.storage.write i v })
  else .error (.noSuchCell i s.params.capacity)

/-! ## The queue -/

/-- Advancing a cursor: `(c + 1) mod N` (R25, R59). -/
def advanceCursor (capacity c : Nat) : Nat := (c + 1) % capacity

/-- The content of the queue (R27): the cells `storage[(rd + k) mod N]`, `k = 0 .. count-1`, oldest first. -/
def State.content (s : State) : List (Option Byte) :=
  (List.range s.queue.count).map fun k => s.queue.storage.read ((s.queue.rd + k) % s.params.capacity)

/-- QINSERT's body (R124). -/
def insertByte (s : State) (v : Byte) : Except Fault State :=
  if isFull s then .error (.queueOverflow v s.queue.rd s.queue.wr s.queue.count)
  else
    match memWrite s s.queue.wr v with
    | .error f => .error f
    | .ok s1 =>
      .ok (s1.withQueue { s1.queue with
        wr := advanceCursor s1.params.capacity s1.queue.wr
        count := s1.queue.count + 1 })

/-- QREMOVE's body (R125). -/
def removeByte (s : State) : Except Fault (Byte × State) :=
  if isEmpty s then .error (.queueUnderflow s.queue.rd s.queue.wr)
  else
    match memRead s s.queue.rd with
    | .error f => .error f
    | .ok (v, s1) =>
      .ok (v, s1.withQueue { s1.queue with
        rd := advanceCursor s1.params.capacity s1.queue.rd
        count := s1.queue.count - 1 })

/-- QPEEK's body (R126). -/
def peekByte (s : State) : Except Fault (Byte × State) := memRead s s.queue.rd

/-! ## The phase register -/

/-- The phase's two-bit code (R89); 3 is reserved and never held. -/
def Phase.code : Phase → BitVec 2
  | .ingress => 0
  | .egress => 1
  | .housekeep => 2

/-- The successor (R30, R89): INGRESS, EGRESS, HOUSEKEEP, INGRESS. -/
def Phase.next : Phase → Phase
  | .ingress => .egress
  | .egress => .housekeep
  | .housekeep => .ingress

/-- A phase completes: `phase <- next(phase)` (R140), and it returns nothing (R86). -/
def State.endPhase (s : State) : State := (s.withPhase s.phase.next).returns none

/-- INGRESS's working register dies with the phase (R31, U8): it is any value from here on. -/
def State.retireIngress (s : State) : State :=
  (s.withWork { s.work with rxr := Config.deadRxr s.draws }).tick

/-- The working registers once EGRESS's have died, with the `n`-th free values in their place. -/
def deadEgress (w : Working) (n : Nat) : Working where
  rxr := w.rxr
  queued := Config.deadCount 0 n
  ready := Config.deadReady n
  quota := Config.deadCount 1 n
  sent := Config.deadCount 2 n
  head := Config.deadByte n
  status := Config.deadStatus n

/-- EGRESS's working registers die with the phase (R31, U8): each is any value from here on. -/
def State.retireEgress (s : State) : State := (s.withWork (deadEgress s.work s.draws)).tick

/-! ## Faults and refusals -/

/-- The fault's code (R203); the model's own fault has none. -/
def Fault.code : Fault → Option Nat
  | .queueOverflow _ _ _ _ => some 1
  | .queueUnderflow _ _ => some 2
  | .noSuchCell _ _ => none

/-- `raise <Fault>(info)` (R16, R203): the operation ends with the fault. -/
def raise (f : Fault) : Host.Outcome State Fault Refusal := .fault f

/-- `refuse <Reason>` (R16, R207): the operation ends with the refusal. -/
def refuse (r : Refusal) : Host.Outcome State Fault Refusal := .refused r

/-- The next state of an operation that can only fault. -/
def complete (r : Except Fault State) : Host.Outcome State Fault Refusal :=
  match r with
  | .ok s => .next s
  | .error f => raise f

/-- The queue after a fault: unspecified (R203, U5). Every cell, both cursors and the count are free. -/
def faultedQueue (s : State) : Queue where
  storage := (List.range s.params.capacity).filterMap fun i =>
    (Config.faultCell i s.draws).map fun v => (i, v)
  rd := Config.faultCursor 0 s.draws
  wr := Config.faultCursor 1 s.draws
  count := Config.faultCursor 2 s.draws

/-- `faults` with one record more (R39): a set, to which a record is added and from which none is removed. -/
def addFault (fs : List Fault) (f : Fault) : List Fault := if f ∈ fs then fs else fs ++ [f]

/-- The state a run stands in after an outcome from `s` (R39, R203, R207): a fault adds its record to `faults` and leaves
the queue unspecified; a refusal sets `refused` and changes nothing else. -/
def stopState (s : State) : Host.Outcome State Fault Refusal → State
  | .next t => t
  | .fault f => ((s.withBook { s.book with faults := addFault s.book.faults f }).withQueue (faultedQueue s)).tick
  | .refused _ => s.withBook { s.book with refused := true }

end Sys2Proof.Machine
end

