-- ==== Sys2Proof/Machine/Operands.lean ====
section
/-!
DEFINITION. The operands that are not in the command word (spec/30_encoding.md R85) and the environment calls that bring
the answers (R90 to R99, spec/41_relay_loop.md R141). An answer comes from the listed inputs, or is a free value where
the list has ended: any answer within its encoding (U19).
-/
namespace Sys2Proof.Machine

open Sys2Proof

/-- `ReceiveByte() -> rxr` (R91): the answer, and the state with the call in its trace. -/
def receiveByte (s : State) : Half × State :=
  match s.inputs.rxIn with
  | a :: rest => (a, (s.withInputs { s.inputs with rxIn := rest }).record (.receiveByte a))
  | [] => (Config.freeReceive s.draws, s.tick.record (.receiveByte (Config.freeReceive s.draws)))

/-- `IsSendReady() -> ready` (R95). -/
def isSendReady (s : State) : Bool × State :=
  match s.inputs.readyIn with
  | a :: rest => (a, (s.withInputs { s.inputs with readyIn := rest }).record (.isSendReady a))
  | [] => (Config.freeReady s.draws, s.tick.record (.isSendReady (Config.freeReady s.draws)))

/-- `SendByte(b) -> st` (R93, R94). -/
def sendByte (s : State) (b : Byte) : Status × State :=
  match s.inputs.sendIn with
  | a :: rest => (a, (s.withInputs { s.inputs with sendIn := rest }).record (.sendByte b a))
  | [] => (Config.freeStatus s.draws, s.tick.record (.sendByte b (Config.freeStatus s.draws)))

/-- `PeriodicTask()` (R96): no argument, no result, no effect on the core. -/
def periodicTask (s : State) : State := s.record .periodicTask

/-- `ReceiveByte`'s answer is the sentinel "no data available": any negative value, `rxr[15] = 1` (R91). -/
def isSentinel (rxr : Half) : Bool := rxr.msb

/-- The byte an answer carries: `rxr[7:0]` (R92). -/
def receivedByte (rxr : Half) : Byte := rxr.setWidth 8

/-- `SendByte` succeeded: status 0; not-ready, error and the reserved value are failures (R94, R150). -/
def isSent (st : Status) : Bool := st == 0

/-- SETLINE's operand: the `LE` snapshot, read whole (R33, R85 (b), R182). -/
def lineOperand (s : State) : LineEncoding := s.inputs.le

end Sys2Proof.Machine
end

