-- ==== Sys2Proof/Machine/LineConfig.lean ====
section
/-!
DEFINITION. The line-encoding handler (spec/42_line_encoding.md R170 to R184): the mode mask, the divisor, the register
writes and their order; the register numbers and the write port (R56, R110).
-/
namespace Sys2Proof.Machine

open Sys2Proof

/-- `ParityBits(p)` (R174): odd is 1, even is 2, every other value gives no bits. -/
def parityBits (p : Params) (parity : Byte) : Byte :=
  if parity = 1 then p.mParOdd else if parity = 2 then p.mParEven else 0

/-- `StopBits(s)` (R175): two is 2, every other value gives no bit. -/
def stopBits (p : Params) (stop : Byte) : Byte := if stop = 2 then p.mStop2 else 0

/-- `DataBits(n)` (R176): the count itself, 6, 7 or 8; every other value gives no bits. -/
def dataBits (p : Params) (databits : Byte) : Byte :=
  if databits = 6 then p.mData6
  else if databits = 7 then p.mData7
  else if databits = 8 then p.mData6 ||| p.mData7
  else 0

/-- `ModeOf` (R173). -/
def modeOf (p : Params) (le : LineEncoding) : Byte :=
  parityBits p le.parity ||| stopBits p le.stop ||| dataBits p le.databits

/-- The default body of `DivisorOf` (R180), on naturals; it has no value at baud 0 and where the quotient is 0. -/
def usartDivisor (fClk : Nat) (double : Bool) (baud : Nat) : Option Nat :=
  if baud = 0 then none
  else
    let q := (fClk / (if double then 8 else 16) + baud / 2) / baud
    if q = 0 then none else some (q - 1)

/-- `DivisorOf` (R12, R179): the default body, or the deployment's own function. -/
def divisorOf (f : DivisorFormula) (double : Bool) (baud : Nat) : Option Nat :=
  match f with
  | .usart fClk => usartDivisor fClk double baud
  | .deployment => some (Config.deploymentDivisor double baud)

/-- `d <- DivisorOf(DOUBLE_SPEED, LE.baud) mod 2^DIV_W` (R179); a free 16-bit value where it has none (R180, U6). -/
def divisorValue (s : State) (baud : BitVec 32) : Half × State :=
  match divisorOf s.params.divisor Config.doubleSpeed baud.toNat with
  | some d => (BitVec.ofNat 16 d, s)
  | none => (Config.freeDivisor s.draws, s.tick)

/-- `EN_OFF`: all function bits cleared (R11, R105). -/
def enOff : Byte := 0

/-- `EN_RUN = E_RXIE | E_TXEN | E_RXEN` (R11, R105). -/
def enRun (p : Params) : Byte := p.eRxie ||| p.eTxen ||| p.eRxen

/-- What a write leaves in the registers: the one it names takes the value, whole (R57). -/
def Line.write (l : Line) : RegWrite → Line
  | .mode v => { l with mode := v }
  | .divisor v => { l with divisor := v }
  | .enable v => { l with enable := v }

/-- `RegWrite(r, v)` (R57): the register takes the value and the write joins the trace. -/
def regWrite (s : State) (w : RegWrite) : State := (s.withLine (s.line.write w)).record (.regWrite w)

/-- The handler moves to one of its two states (R171). -/
def setHandler (s : State) (h : HandlerState) : State := s.withLine { s.line with hstate := h }

/-- The four writes of a SETLINE, in their order (R177). -/
def lineWrites (p : Params) (d : Half) (m : Byte) : List RegWrite :=
  [.enable enOff, .divisor d, .mode m, .enable (enRun p)]

/-- SETLINE (R172). -/
def execSetline (s : State) : Host.Outcome State Fault Refusal :=
  let le := lineOperand s
  let s1 := setHandler s .reconfiguring
  let m := modeOf s1.params le
  let (d, s2) := divisorValue s1 le.baud
  let s3 := (lineWrites s2.params d m).foldl regWrite s2
  .next ((setHandler s3 .idle).returns none)

/-- The register numbers, the pin `cfg_reg` (R56, R110); 3 is never written. -/
def RegWrite.number : RegWrite → BitVec 2
  | .mode _ => 0
  | .divisor _ => 1
  | .enable _ => 2

/-- The pin `cfg_wdata` (R110): the value right-aligned, upper bits 0 for the 8-bit registers. -/
def RegWrite.wdata : RegWrite → Half
  | .mode v => v.setWidth 16
  | .divisor v => v
  | .enable v => v.setWidth 16

/-- The line-encoding record as R108 writes it beside SETLINE: baud, parity, stop, databits between braces. -/
def LineEncoding.assembly (le : LineEncoding) : String :=
  let parity := if le.parity = 0 then "none" else if le.parity = 1 then "odd" else if le.parity = 2 then "even"
    else toString le.parity.toNat
  let stop := if le.stop = 0 then "one" else if le.stop = 2 then "two" else toString le.stop.toNat
  (Char.ofNat 123).toString ++ toString le.baud.toNat ++ ", " ++ parity ++ ", " ++ stop ++ ", " ++
    toString le.databits.toNat ++ (Char.ofNat 125).toString

end Sys2Proof.Machine
end

