-- ==== Sys2Proof/Machine/QueueOps.lean ====
section
/-!
DEFINITION. The seven queue operations (spec/40_queue_ops.md R120 to R126) and the QUEUE pins that show them (R110, R111).
-/
namespace Sys2Proof.Machine

open Sys2Proof

/-- QINIT (R120): refused where it has run before; otherwise an empty queue, cursors 0, storage untouched. -/
def execQinit (s : State) : Host.Outcome State Fault Refusal :=
  if s.book.inited then refuse .reinitRefused
  else .next (((s.withQueue { s.queue with rd := 0, wr := 0, count := 0 }).withBook
    { s.book with inited := true }).returns none)

/-- QISFULL (R121). -/
def execQisfull (s : State) : Host.Outcome State Fault Refusal := .next (s.returns (some (.bit (isFull s))))

/-- QISEMPTY (R122). -/
def execQisempty (s : State) : Host.Outcome State Fault Refusal := .next (s.returns (some (.bit (isEmpty s))))

/-- QCOUNT (R123). -/
def execQcount (s : State) : Host.Outcome State Fault Refusal := .next (s.returns (some (.count s.queue.count)))

/-- QINSERT (R124). -/
def execQinsert (v : Byte) (s : State) : Host.Outcome State Fault Refusal :=
  complete ((insertByte s v).map fun t => t.returns none)

/-- QREMOVE (R125). -/
def execQremove (s : State) : Host.Outcome State Fault Refusal :=
  complete ((removeByte s).map fun r => r.2.returns (some (.byte r.1)))

/-- QPEEK (R126). -/
def execQpeek (s : State) : Host.Outcome State Fault Refusal :=
  complete ((peekByte s).map fun r => r.2.returns (some (.byte r.1)))

/-- The pins `q_full` and `full` (R110, R111). -/
def pinFull (s : State) : Bool := isFull s

/-- The pins `q_empty` and `empty` (R110, R111). -/
def pinEmpty (s : State) : Bool := isEmpty s

/-- The pins `q_count` and `count` (R110, R111). -/
def pinCount (s : State) : Nat := s.queue.count

/-- The pin `head`, valid when `empty = 0` (R111): the byte at `rd`. -/
def pinHead (s : State) : Option Byte :=
  if isEmpty s then none else s.queue.storage.read (s.queue.rd)

end Sys2Proof.Machine
end

