-- ==== Sys2Proof/Machine/Relay.lean ====
section
/-!
DEFINITION. The three phases of the relay loop (spec/41_relay_loop.md R143, R147, R154). A phase is one atomic step
(R17, R159); its working registers are written as its pseudocode writes them and die at its end (R31).
-/
namespace Sys2Proof.Machine

open Sys2Proof

/-- INGRESS after its QISFULL test answered 0 (R143): one `ReceiveByte`; a byte is inserted, the sentinel is not (R146). -/
def ingressBody (s : State) : Except Fault State :=
  let (rxr, s1) := receiveByte s
  let s2 := s1.withWork { s1.work with rxr := rxr }
  if isSentinel rxr then .ok s2.retireIngress
  else (insertByte s2 (receivedByte rxr)).map State.retireIngress

/-- INGRESS (R143). A full queue is skipped without a call (R145); out of its phase it is refused (R161). -/
def execIngress (s : State) : Host.Outcome State Fault Refusal :=
  if s.phase = .ingress then
    if isFull s then .next s.endPhase
    else complete ((ingressBody s).map State.endPhase)
  else refuse .outOfPhase

/-- One pass of EGRESS's loop body (R147, R148): peek, send, and remove only on success. The Boolean says whether the
pass goes on. -/
def sendOne (s : State) : Except Fault (Bool × State) :=
  match peekByte s with
  | .error f => .error f
  | .ok (b, s1) =>
    let s2 := s1.withWork { s1.work with head := b }
    let (st, s3) := sendByte s2 b
    let s4 := s3.withWork { s3.work with status := st }
    if isSent st then
      match removeByte s4 with
      | .error f => .error f
      | .ok (_, s5) => .ok (true, s5.withWork { s5.work with sent := s5.work.sent + 1 })
    else .ok (false, s4)

/-- EGRESS's loop (R147): at most `n` bytes, ended by the first failed send (R150). -/
def sendLoop : Nat → State → Except Fault State
  | 0, s => .ok s
  | n + 1, s =>
    match sendOne s with
    | .error f => .error f
    | .ok (true, t) => sendLoop n t
    | .ok (false, t) => .ok t

/-- `quota = min(queued, CHUNK_LIMIT - 1)` (R149). -/
def egressQuota (s : State) : Nat := min s.work.queued (s.params.chunkLimit - 1)

/-- EGRESS's body (R147): sample `count`, probe the sink, and if it is ready send up to the quota (R152). -/
def egressBody (s : State) : Except Fault State :=
  let s1 := s.withWork { s.work with queued := s.queue.count }
  let (ready, s2) := isSendReady s1
  let s3 := s2.withWork { s2.work with ready := ready }
  if ready then
    let quota := egressQuota s3
    (sendLoop quota (s3.withWork { s3.work with quota := quota, sent := 0 })).map State.retireEgress
  else .ok s3.retireEgress

/-- EGRESS (R147); out of its phase it is refused (R161). -/
def execEgress (s : State) : Host.Outcome State Fault Refusal :=
  if s.phase = .egress then complete ((egressBody s).map State.endPhase) else refuse .outOfPhase

/-- HOUSEKEEP (R154); out of its phase it is refused (R161). -/
def execHousekeep (s : State) : Host.Outcome State Fault Refusal :=
  if s.phase = .housekeep then .next (periodicTask s).endPhase else refuse .outOfPhase

end Sys2Proof.Machine
end

