-- ==== Sys2Proof/Machine/Dispatch.lean ====
section
/-! DEFINITION. One arm per operation of spec/30_encoding.md R82, each a direct call of its meaning. -/

namespace Sys2Proof.Machine

open Sys2Proof

def exec (i : Instr) (s : State) : Host.Outcome State Fault Refusal :=
  match i with
  | .qinit => Sys2Proof.Machine.execQinit s
  | .qisfull => Sys2Proof.Machine.execQisfull s
  | .qisempty => Sys2Proof.Machine.execQisempty s
  | .qcount => Sys2Proof.Machine.execQcount s
  | .qinsert v => Sys2Proof.Machine.execQinsert v s
  | .qremove => Sys2Proof.Machine.execQremove s
  | .qpeek => Sys2Proof.Machine.execQpeek s
  | .ingress => Sys2Proof.Machine.execIngress s
  | .egress => Sys2Proof.Machine.execEgress s
  | .housekeep => Sys2Proof.Machine.execHousekeep s
  | .setline => Sys2Proof.Machine.execSetline s

end Sys2Proof.Machine
end

