-- ==== Sys2Proof/Machine/Fetch.lean ====
section
/-!
DEFINITION. What the next step executes. The core has no instruction memory and no fetch (spec/20_memory.md R68): a
command is presented to it from outside (spec/30_encoding.md R80, R111), or else the deployed core runs on its own, the
phase that `phase` names (R140) or the handler of a delivered notification (R213, R214).
-/
namespace Sys2Proof.Machine

open Sys2Proof

/-- What a step is about to do. -/
inductive Fetched where
  /-- Execute an operation from this state. -/
  | run (i : Instr) (s : State)
  /-- No operation is asked for in this step. -/
  | idle (s : State)
  /-- What was presented has no meaning (R207). -/
  | refuse (r : Refusal)

/-- The command word of a phase has the phase's code as its `fn` (R89): the phase's operation. -/
def phaseInstr : Phase → Instr
  | .ingress => .ingress
  | .egress => .egress
  | .housekeep => .housekeep

/-- A command leaves the list of those waiting; an `LE` record beside it is now on the `LE` port (R85 (b)). -/
def present (s : State) (rest : List Command) (le : Option LineEncoding) : State :=
  s.withInputs { s.inputs with program := rest, le := le.getD s.inputs.le }

/-- A command is presented: a word is decoded (R83) and a reserved one refused (R87, R208); on the pins, `push` is QINSERT
and `pop` is QREMOVE, and both at once are refused (R111, R209). -/
def fetchCommand (s : State) (c : Command) (rest : List Command) : Fetched :=
  match c with
  | .word w le =>
    match decode w with
    | .ok i => .run i (present s rest le)
    | .error _ => .refuse (.illegalOp w)
  | .pins (some v) false => .run (.qinsert v) (present s rest none)
  | .pins none true => .run .qremove (present s rest none)
  | .pins none false => .idle (present s rest none)
  | .pins (some _) true => .refuse .concurrentQueueOp

/-- The turns of a notification that waits `k` relay turns and is then handled (R253). -/
def turnsLeft (k : Nat) : List Turn := List.replicate k .relay ++ [.notice]

/-- Who goes first where a notification waits and the relay could go on (R210, R214): the listed choice; where the list has
ended, the relay for a free, finite number of turns and then the notification, which is eventually handled (R253). -/
def takeTurn (s : State) : Turn × State :=
  match s.inputs.turns with
  | t :: rest => (t, s.withInputs { s.inputs with turns := rest })
  | [] =>
    match Config.freeWait s.draws with
    | 0 => (.notice, s.tick)
    | k + 1 => (.relay, s.tick.withInputs { s.inputs with turns := turnsLeft k })

/-- A notification is handled: one SETLINE with the snapshot it carries (R97, R213); a lifecycle notification is ignored
(R98, R212). -/
def fetchNotice (s : State) (n : Notice) (rest : List Notice) : Fetched :=
  match n with
  | .lineEncodingChanged le => .run .setline (s.withInputs { s.inputs with notices := rest, le := le })
  | .lifecycle _ => .idle (s.withInputs { s.inputs with notices := rest })

/-- The deployed core (R140, R214): the relay's phase, or the oldest waiting notification. -/
def fetchDeployed (s : State) : Fetched :=
  match s.inputs.notices with
  | [] => .run (phaseInstr s.phase) s
  | n :: rest =>
    match takeTurn s with
    | (.relay, s1) => .run (phaseInstr s1.phase) s1
    | (.notice, s1) => fetchNotice s1 n rest

/-- What the next step does: the next presented command, else the deployed core. -/
def fetch (s : State) : Fetched :=
  match s.inputs.program with
  | c :: rest => fetchCommand s c rest
  | [] => fetchDeployed s

/-- A run that a fault or a refusal has ended takes no further step (R203, R207): the outcome that stands. -/
def stopped (s : State) : Option (Host.Outcome State Fault Refusal) :=
  match s.book.faults with
  | f :: _ => some (raise f)
  | [] => if s.book.refused then some (refuse .alreadyRefused) else none

/-- The start state of a program that begins with the operation: for QINIT "the state before that QINIT", `inited` false
(R231); for a relay phase, `phase` at "the phase its operation needs" (R161); for any other, the state as it stands. -/
def startFor (s : State) : Instr → State
  | .qinit => s.withBook { s.book with inited := false }
  | .qisfull => s
  | .qisempty => s
  | .qcount => s
  | .qinsert _ => s
  | .qremove => s
  | .qpeek => s
  | .ingress => s.withPhase .ingress
  | .egress => s.withPhase .egress
  | .housekeep => s.withPhase .housekeep
  | .setline => s

/-- A command word placed where the next step takes it, with nothing beside it, in the start state of a program that begins
with it (log 10). -/
def placeWord (s : State) (w : Half) : State :=
  let t := s.withInputs { s.inputs with program := .word w none :: s.inputs.program }
  match decode w with
  | .ok i => startFor t i
  | .error _ => t

end Sys2Proof.Machine
end

