-- ==== Sys2Proof/Machine/Step.lean ====
section
/-!
DEFINITION. One step: the execution of one operation from start to end (spec/00_scope.md R17).
-/
namespace Sys2Proof.Machine

open Sys2Proof

/-- One step of the machine (R17): nothing where the run has ended, else what `fetch` says. -/
def step (s : State) : Host.Outcome State Fault Refusal :=
  match stopped s with
  | some o => o
  | none =>
    match fetch s with
    | .run i t => exec i t
    | .idle t => .next t
    | .refuse r => refuse r

/-- `s` with the command word whose bits are the low `nbits` of `w` as the next thing presented (log 10). -/
def State.withFetchWord (s : State) (nbits w : Nat) : State := placeWord s (tableWord nbits w)

end Sys2Proof.Machine
end

