-- ==== Sys2Proof/Safety.lean ====
section
/-!
DEFINITION. What counts as a good state and a safe run, in the terms the statements use: the invariants of
spec/10_state.md R25 to R27, the bytes received and sent along a trace (spec/20_memory.md R63), and runs of operations.
-/
namespace Sys2Proof

/-- One of the seven queue operations (R82). -/
def Instr.isQueueOp : Instr → Bool
  | .qinit => true
  | .qisfull => true
  | .qisempty => true
  | .qcount => true
  | .qinsert _ => true
  | .qremove => true
  | .qpeek => true
  | .ingress => false
  | .egress => false
  | .housekeep => false
  | .setline => false

/-- One of the three relay phases (R82). -/
def Instr.isPhase : Instr → Bool
  | .qinit => false
  | .qisfull => false
  | .qisempty => false
  | .qcount => false
  | .qinsert _ => false
  | .qremove => false
  | .qpeek => false
  | .ingress => true
  | .egress => true
  | .housekeep => true
  | .setline => false

/-- The byte an operation inserts, if it is a QINSERT. -/
def Instr.inserted : Instr → Option Byte
  | .qinit => none
  | .qisfull => none
  | .qisempty => none
  | .qcount => none
  | .qinsert v => some v
  | .qremove => none
  | .qpeek => none
  | .ingress => none
  | .egress => none
  | .housekeep => none
  | .setline => none

/-- The bytes a list of operations inserts, in order. -/
def insertedBytes (is : List Instr) : List Byte := is.filterMap Instr.inserted

end Sys2Proof

namespace Sys2Proof.Machine

open Sys2Proof

/-- No fault and no refusal has ended the run (R203, R207). -/
def Good (s : State) : Prop := s.book.faults = [] ∧ s.book.refused = false

/-- The invariants of a QUEUE of capacity `n`: R25, the cursor relation R26, every cell of the content written (R27), and
the store in its canonical form with no cell outside 0 .. N-1 (R21). -/
structure Queue.Inv (n : Nat) (q : Queue) : Prop where
  storeCanonical : q.storage.wf = true
  cellsInStore : ∀ c ∈ q.storage, c.1 < n
  rdInStore : q.rd < n
  wrInStore : q.wr < n
  countInRange : q.count ≤ n
  cursorRelation : q.wr = (q.rd + q.count) % n
  contentWritten : ∀ k < q.count, (q.storage.read ((q.rd + k) % n)).isSome = true

/-- The machine's QUEUE meets its invariants. -/
abbrev QueueInv (s : State) : Prop := Queue.Inv s.params.capacity s.queue

/-- The invariant of the machine: parameters R8 to R11 allow, the queue's invariants, and the handler Idle between steps
(R37). -/
structure Inv (s : State) : Prop where
  paramsOk : s.params.wf = true
  queueOk : QueueInv s
  handlerIdle : s.line.hstate = .idle

/-- The core runs on its own: no command is presented to it (R80). -/
def Deployed (s : State) : Prop := s.inputs.program = []

/-- The byte an event brought in: a `ReceiveByte` answer that is no sentinel (R91, R92). -/
def Event.received : Event → Option Byte
  | .receiveByte a => if isSentinel a then none else some (receivedByte a)
  | .isSendReady _ => none
  | .sendByte _ _ => none
  | .periodicTask => none
  | .regWrite _ => none

/-- The byte an event sent off: a `SendByte` that succeeded (R94). -/
def Event.sent : Event → Option Byte
  | .receiveByte _ => none
  | .isSendReady _ => none
  | .sendByte b st => if isSent st then some b else none
  | .periodicTask => none
  | .regWrite _ => none

/-- The write an event is, if it is one: the transceiver's slice of the trace (R64). -/
def Event.write : Event → Option RegWrite
  | .receiveByte _ => none
  | .isSendReady _ => none
  | .sendByte _ _ => none
  | .periodicTask => none
  | .regWrite w => some w

/-- The bytes received along a trace, in order (R63). -/
def receivedBytes (tr : List Event) : List Byte := tr.filterMap Event.received

/-- The bytes sent along a trace, in order (R63). -/
def sentBytes (tr : List Event) : List Byte := tr.filterMap Event.sent

/-- The transceiver's slice of a trace (R64). -/
def lineSlice (tr : List Event) : List RegWrite := tr.filterMap Event.write

/-- The USB collaborator's slice of a trace (R64). -/
def usbSlice (tr : List Event) : List Event := tr.filter fun e => e.write.isNone

/-- Nothing lost, doubled or reordered (R63, R155): what was received is what was sent, then what is queued. -/
def Conserved (s : State) : Prop :=
  (receivedBytes s.trace).map some = (sentBytes s.trace).map some ++ s.content

/-- Operations executed one after another (R17), ended by the first that does not complete. -/
def execAll : List Instr → State → Host.Outcome State Fault Refusal
  | [], s => .next s
  | i :: is, s =>
    match exec i s with
    | .next t => execAll is t
    | .fault f => .fault f
    | .refused r => .refused r

/-- That many steps of the machine one after another, ended by the first that does not complete. -/
def stepAll : Nat → State → Host.Outcome State Fault Refusal
  | 0, s => .next s
  | n + 1, s =>
    match step s with
    | .next t => stepAll n t
    | .fault f => .fault f
    | .refused r => .refused r

/-- The byte an operation removed: QREMOVE's result. -/
def removedByte (i : Instr) (r : Option Result) : Option Byte :=
  match i, r with
  | .qremove, some (.byte v) => some v
  | _, _ => none

/-- The bytes removed along a run of operations, in order, with its outcome. -/
def execRemoved : List Instr → State → List Byte × Host.Outcome State Fault Refusal
  | [], s => ([], .next s)
  | i :: is, s =>
    match exec i s with
    | .next t => ((removedByte i t.result).toList ++ (execRemoved is t).1, (execRemoved is t).2)
    | .fault f => ([], .fault f)
    | .refused r => ([], .refused r)

/-- An outcome's next state, changed. -/
def mapNext (g : State → State) : Host.Outcome State Fault Refusal → Host.Outcome State Fault Refusal
  | .next t => .next (g t)
  | .fault f => .fault f
  | .refused r => .refused r

/-- `ReceiveByte`. -/
def Event.isReceive (e : Event) : Bool := match e with
  | .receiveByte _ => true
  | _ => false

/-- `IsSendReady`. -/
def Event.isProbe (e : Event) : Bool := match e with
  | .isSendReady _ => true
  | _ => false

/-- `SendByte`. -/
def Event.isSend (e : Event) : Bool := match e with
  | .sendByte _ _ => true
  | _ => false

/-- A `SendByte` that failed (R94). -/
def Event.isFailedSend (e : Event) : Bool := match e with
  | .sendByte _ st => !isSent st
  | _ => false

/-- `PeriodicTask`. -/
def Event.isHousekeeping (e : Event) : Bool := match e with
  | .periodicTask => true
  | _ => false

/-- The state with another `SINK`: for the claim that no rule depends on it (R13, R249). -/
def State.withSink (s : State) (k : Sink) : State := { s with params := { s.params with sink := k } }

end Sys2Proof.Machine
end

