-- ==== Sys2Proof/Certificates/Slice0/Obligations.lean ====
section
/-!
DEFINITION. The statements about the model, from the numbered rules of spec/: one definition each, in the order of
OBLIGATIONS.json. The working registers between phases and the values of free constants stand in no statement.
-/
open Sys2Proof Sys2Proof.Machine

/-! ## Encoding and fetch -/

/-- R82, R83: every well-formed operation decodes from its word, and a word that decodes to an operation is that
operation's word. -/
def Obligations.DecodeInvertsEncode : Prop :=
  (∀ i : Instr, i.wellFormed = true → decode (encode i) = .ok i) ∧
  ∀ (w : Half) (i : Instr), decode w = .ok i → i.wellFormed = true ∧ encode i = w

/-- R83: decoding is total; a word that selects a row of R82 is that row's operation, any other word is reserved, and no
two rows select the same word. -/
def Obligations.TableRowsDecideTheOperation : Prop :=
  ∀ w : Half,
    (rowsOf w).length ≤ 1 ∧
    (rowsOf w = [] ↔ ∃ r, decode w = .error r) ∧
    ∀ i, decode w = .ok i → (rowsOf w).map OpRow.mnemonic = [i.mnemonic]

/-- R87: exactly the listed words are reserved. -/
def Obligations.ReservedWordsAreTheListedOnes : Prop :=
  ∀ w : Half,
    (∃ r, decode w = .error r) ↔
      3 ≤ (famField w).toNat ∨
      ((famField w).toNat = 0 ∧ 7 ≤ (fnField w).toNat) ∨
      ((famField w).toNat = 1 ∧ 3 ≤ (fnField w).toNat) ∨
      ((famField w).toNat = 2 ∧ 1 ≤ (fnField w).toNat) ∨
      (imm8Field w ≠ 0 ∧ ¬ ((famField w).toNat = 0 ∧ (fnField w).toNat = 4))

/-- R84: QINSERT's operand is the word's low byte as it stands, and every byte is legal. -/
def Obligations.InsertOperandIsTheLowByte : Prop :=
  (∀ (w : Half) (v : Byte), decode w = .ok (.qinsert v) → v = w.extractLsb' 0 8) ∧
  ∀ v : Byte, decode (0x0400 ||| v.setWidth 16) = .ok (.qinsert v)

/-- R82: words written out from the table decode to their operations. -/
def Obligations.TableWordsDecode : Prop :=
  decode 0x0000 = .ok .qinit ∧ decode 0x0300 = .ok .qcount ∧ decode 0x0445 = .ok (.qinsert 0x45) ∧
  decode 0x0500 = .ok .qremove ∧ decode 0x1000 = .ok .ingress ∧ decode 0x1100 = .ok .egress ∧
  decode 0x1200 = .ok .housekeep ∧ decode 0x2000 = .ok .setline ∧ decode 0x0601 = .error .operand ∧
  decode 0x1300 = .error .function ∧ decode 0x3000 = .error .family

/-- R208: a reserved word is refused as IllegalOp and no state other than `refused` changes. -/
def Obligations.ReservedWordIsRefused : Prop :=
  ∀ (s : State) (w : Half) (le : Option LineEncoding) (rest : List Command),
    Good s → s.inputs.program = .word w le :: rest → (∃ r, decode w = .error r) →
    step s = .refused (.illegalOp w) ∧
    stopState s (step s) = { s with book := { s.book with refused := true } }

/-- R80: when the next command word decodes to an operation, the step is that operation, executed from the state in which
the word has left the list and the record beside it is on the LE port. The presentation is the model's (log 10). -/
def Obligations.StepRunsTheDecodedOperation : Prop :=
  ∀ (s : State) (w : Half) (le : Option LineEncoding) (rest : List Command) (i : Instr),
    Good s → s.inputs.program = .word w le :: rest → decode w = .ok i →
    step s = exec i { s with inputs := { s.inputs with program := rest, le := le.getD s.inputs.le } }

/-- R111, R209: on the pins `push` is QINSERT, `pop` is QREMOVE, neither is no operation, and both are refused with no
state but `refused` changed. -/
def Obligations.PinsPushAndPop : Prop :=
  ∀ (s : State) (push : Option Byte) (pop : Bool) (rest : List Command),
    Good s → s.inputs.program = .pins push pop :: rest →
    (step s =
      match push, pop with
      | some v, false => exec (.qinsert v) { s with inputs := { s.inputs with program := rest } }
      | none, true => exec .qremove { s with inputs := { s.inputs with program := rest } }
      | none, false => .next { s with inputs := { s.inputs with program := rest } }
      | some _, true => .refused .concurrentQueueOp) ∧
    (push.isSome = true → pop = true →
      stopState s (step s) = { s with book := { s.book with refused := true } })

/-- R140, R212, R213, R214: with no command presented, the step is the phase `phase` names, or, where a notification waits
and it is its turn, one SETLINE with its snapshot; a lifecycle notification changes nothing of the core. Where the order
is not listed, the notification goes first, or the relay does and the notification after some finite number of relay turns
more (R253). How inputs are held, and that no notification arrives but those listed, is the model's (log 11, log 12,
log 27). -/
def Obligations.DeployedStepIsPhaseOrNotice : Prop :=
  ∀ s : State, Good s → Deployed s →
    (s.inputs.notices = [] → step s = exec (phaseInstr s.phase) s) ∧
    ∀ n rest, s.inputs.notices = n :: rest →
      let relayStep : State → Host.Outcome State Fault Refusal := fun u => exec (phaseInstr u.phase) u
      let noticeStep : State → Host.Outcome State Fault Refusal := fun u =>
        match n with
        | .lineEncodingChanged le => exec .setline { u with inputs := { u.inputs with notices := rest, le := le } }
        | .lifecycle _ => .next { u with inputs := { u.inputs with notices := rest } }
      (∀ ts, s.inputs.turns = .relay :: ts → step s = relayStep { s with inputs := { s.inputs with turns := ts } }) ∧
      (∀ ts, s.inputs.turns = .notice :: ts → step s = noticeStep { s with inputs := { s.inputs with turns := ts } }) ∧
      (s.inputs.turns = [] →
        step s = noticeStep { s with draws := s.draws + 1 } ∨
        ∃ k, step s = relayStep { s with
          inputs := { s.inputs with turns := List.replicate k .relay ++ [.notice] }
          draws := s.draws + 1 })

/-! ## Reset -/

/-- R44, R231, R232: what reset leaves, for every choice of the parameters. MODE, DIVISOR, ENABLE and the working registers
have no value in the spec and stand in no clause. -/
def Obligations.ResetLeavesTheTableValues : Prop :=
  ∀ p : Params,
    let s := State.resetWith p
    s.params = p ∧ (∀ i, s.queue.storage.read i = none) ∧ s.queue.rd = 0 ∧ s.queue.wr = 0 ∧ s.queue.count = 0 ∧
    isEmpty s = true ∧ (1 ≤ p.capacity → isFull s = false) ∧ s.phase = .ingress ∧ s.line.hstate = .idle ∧
    s.book.faults = [] ∧ s.book.refused = false ∧ s.book.inited = true

/-- R25, R37, R44: the machine's invariant holds at reset, for parameters R8 to R11 allow. -/
def Obligations.ResetMeetsTheInvariant : Prop :=
  ∀ p : Params, p.wf = true → Inv (State.resetWith p) ∧ Good (State.resetWith p) ∧ Conserved (State.resetWith p)

/-! ## Queue operations -/

/-- R120: QINIT empties the queue where it has not run, touching neither the store nor anything else; a second QINIT is
refused; reset is the state before it plus the one QINIT. -/
def Obligations.InitRunsOnce : Prop :=
  (∀ s : State, s.book.inited = false →
    ∃ t, exec .qinit s = .next t ∧
      t = { s with
        queue := { s.queue with rd := 0, wr := 0, count := 0 }
        book := { s.book with inited := true }
        result := none } ∧
      isEmpty t = true ∧ (1 ≤ s.params.capacity → isFull t = false)) ∧
  (∀ s : State, s.book.inited = true → exec .qinit s = .refused .reinitRefused ∧
    stopState s (exec .qinit s) = { s with book := { s.book with refused := true } }) ∧
  ∀ p : Params, exec .qinit (State.preInit p) = .next (State.resetWith p)

/-- R121, R122, R123: the three queries answer from `count` and change nothing else. -/
def Obligations.QueriesAnswerFromCount : Prop :=
  ∀ s : State,
    exec .qisfull s = .next { s with result := some (.bit (decide (s.queue.count = s.params.capacity))) } ∧
    exec .qisempty s = .next { s with result := some (.bit (decide (s.queue.count = 0))) } ∧
    exec .qcount s = .next { s with result := some (.count s.queue.count) } ∧
    (1 ≤ s.params.capacity → ¬ (isFull s = true ∧ isEmpty s = true))

/-- R124: QINSERT on a queue with room stores the byte at the write cursor, advances that cursor modulo N and counts one
more; every other cell, `rd` and everything else stay. -/
def Obligations.InsertStoresAtWriteCursor : Prop :=
  ∀ (s : State) (v : Byte), s.queue.count < s.params.capacity → s.queue.wr < s.params.capacity →
    ∃ t, exec (.qinsert v) s = .next t ∧
      t = { s with queue := t.queue, result := none } ∧
      t.queue.rd = s.queue.rd ∧
      t.queue.wr = (s.queue.wr + 1) % s.params.capacity ∧
      t.queue.count = s.queue.count + 1 ∧
      t.queue.storage.read s.queue.wr = some v ∧
      (∀ a, a ≠ s.queue.wr → t.queue.storage.read a = s.queue.storage.read a) ∧
      isEmpty t = false ∧ (isFull t = true ↔ s.queue.count + 1 = s.params.capacity)

/-- R125: QREMOVE on a non-empty queue returns the byte at the read cursor, advances that cursor modulo N and counts one
less; no cell and nothing else changes. Where the cell is unwritten, which no run reaches, the byte is a free value. -/
def Obligations.RemoveTakesTheHead : Prop :=
  ∀ s : State, s.queue.count ≠ 0 → s.queue.count ≤ s.params.capacity → s.queue.rd < s.params.capacity →
    ∃ t v, exec .qremove s = .next t ∧
      t = { s with
        queue := { s.queue with
          rd := (s.queue.rd + 1) % s.params.capacity
          count := s.queue.count - 1 }
        result := some (.byte v)
        draws := t.draws } ∧
      (∀ u, s.queue.storage.read s.queue.rd = some u → v = u ∧ t.draws = s.draws) ∧
      isFull t = false ∧ (isEmpty t = true ↔ s.queue.count = 1)

/-- R126: QPEEK returns the byte at the read cursor, also on an empty queue, and changes nothing; where the cell is
unwritten it answers some byte, a free value. -/
def Obligations.PeekReadsWithoutRemoving : Prop :=
  ∀ s : State, s.queue.rd < s.params.capacity →
    (∀ v, s.queue.storage.read s.queue.rd = some v →
      exec .qpeek s = .next { s with result := some (.byte v) }) ∧
    (s.queue.storage.read s.queue.rd = none →
      ∃ v, exec .qpeek s = .next { s with result := some (.byte v), draws := s.draws + 1 })

/-- R203, R204, R205: QINSERT on a full queue and QREMOVE on an empty one fault with the operand and the cursors at the
call; codes 1 and 2. What a fault leaves is the model's (log 16, log 26): the record joins `faults`, and nothing outside
the queue changes but the model's own counter. -/
def Obligations.ContractViolationsFault : Prop :=
  ∀ s : State,
    (∀ v, s.queue.count = s.params.capacity →
      exec (.qinsert v) s = .fault (.queueOverflow v s.queue.rd s.queue.wr s.queue.count)) ∧
    (s.queue.count = 0 → exec .qremove s = .fault (.queueUnderflow s.queue.rd s.queue.wr)) ∧
    (∀ v rd wr c, (Fault.queueOverflow v rd wr c).code = some 1) ∧
    (∀ rd wr, (Fault.queueUnderflow rd wr).code = some 2) ∧
    ∀ f : Fault, ∃ u, stopState s (.fault f) = u ∧ f ∈ u.book.faults ∧ (∀ g ∈ s.book.faults, g ∈ u.book.faults) ∧
      u = { s with queue := u.queue, book := { s.book with faults := u.book.faults }, draws := u.draws }

/-- R53: a storage write changes its own cell only, keeps the store canonical, and a cell once written stays written
through every operation. -/
def Obligations.StorageWriteChangesOneCell : Prop :=
  (∀ (s : State) (i : Nat) (v : Byte), i < s.params.capacity →
    ∃ t, memWrite s i v = .ok t ∧
      t = { s with queue := { s.queue with storage := t.queue.storage } } ∧
      t.queue.storage.read i = some v ∧
      (∀ j, j ≠ i → t.queue.storage.read j = s.queue.storage.read j) ∧
      (s.queue.storage.wf = true → t.queue.storage.wf = true)) ∧
  ∀ (i : Instr) (s t : State) (a : Nat), exec i s = .next t →
    (s.queue.storage.read a).isSome = true → (t.queue.storage.read a).isSome = true

/-- R52, R54: a storage read of a written cell answers its byte and changes nothing; of an unwritten cell, some byte, a
free value; an access at an index outside the store, which no run reaches, stops by name (log 17). -/
def Obligations.StorageReadHasNoEffect : Prop :=
  ∀ (s : State) (i : Nat),
    (i < s.params.capacity → ∀ v, s.queue.storage.read i = some v → memRead s i = .ok (v, s)) ∧
    (i < s.params.capacity → s.queue.storage.read i = none →
      ∃ v, memRead s i = .ok (v, { s with draws := s.draws + 1 })) ∧
    (s.params.capacity ≤ i → memRead s i = .error (.noSuchCell i s.params.capacity) ∧
      ∀ v, memWrite s i v = .error (.noSuchCell i s.params.capacity))

/-- R25, R26: QINIT establishes the queue's invariants, every operation that completes keeps them, and with them an empty
and a full queue have equal cursors. -/
def Obligations.QueueInvariantsAreKept : Prop :=
  (∀ s t : State, s.queue.storage.wf = true → (∀ c ∈ s.queue.storage, c.1 < s.params.capacity) →
    1 ≤ s.params.capacity → exec .qinit s = .next t → QueueInv t) ∧
  (∀ (i : Instr) (s t : State), QueueInv s → exec i s = .next t → QueueInv t) ∧
  ∀ s : State, QueueInv s → s.queue.count = 0 ∨ s.queue.count = s.params.capacity → s.queue.rd = s.queue.wr

/-- R127: over any run of queue operations that completes (QINIT apart), the bytes removed followed by what is left are
what was queued followed by the bytes inserted, in order. -/
def Obligations.QueueIsFirstInFirstOut : Prop :=
  ∀ (is : List Instr) (s t : State) (out : List Byte),
    (∀ i ∈ is, i.isQueueOp = true ∧ i ≠ .qinit) → QueueInv s → execRemoved is s = (out, .next t) →
    out.map some ++ t.content = s.content ++ (insertedBytes is).map some

/-- R127: one operation at a time, QINSERT appends to the content, QREMOVE returns and removes its head, QPEEK returns its
head, and the three queries leave it. -/
def Obligations.QueueOperationsActOnTheContent : Prop :=
  ∀ s : State, QueueInv s →
    (∀ v, s.queue.count < s.params.capacity →
      ∃ t, exec (.qinsert v) s = .next t ∧ t.content = s.content ++ [some v]) ∧
    (s.queue.count ≠ 0 →
      ∃ t v, exec .qremove s = .next t ∧ t.result = some (.byte v) ∧ s.content = some v :: t.content) ∧
    (s.queue.count ≠ 0 →
      ∃ t v, exec .qpeek s = .next t ∧ t.result = some (.byte v) ∧ s.content.head? = some (some v) ∧
        t.content = s.content ∧ exec .qpeek t = .next t) ∧
    ∀ i t, i = .qisfull ∨ i = .qisempty ∨ i = .qcount → exec i s = .next t → t.content = s.content

/-- R128: in a run of operations that completes, after `k` QINSERTs and `j` QREMOVEs since QINIT, `count = k - j`, within
0 .. N. An INGRESS's QINSERT is a byte received in the trace, an EGRESS's QREMOVE a byte sent. -/
def Obligations.CountIsInsertsLessRemoves : Prop :=
  ∀ (is : List Instr) (s0 s t : State),
    exec .qinit s0 = .next s → execAll is s = .next t →
    ∃ new, t.trace = s.trace ++ new ∧
      is.countP (fun i => i.inserted.isSome) + (receivedBytes new).length =
        t.queue.count + is.countP (fun i => i == .qremove) + (sentBytes new).length ∧
      t.queue.count ≤ t.params.capacity

/-- R129: after QINIT a queue takes exactly N inserts before it reports full; full, both cursors are 0 and a further insert
is not performed. -/
def Obligations.CapacityIsExactlyN : Prop :=
  ∀ (s0 s : State) (vs : List Byte),
    1 ≤ s0.params.capacity → exec .qinit s0 = .next s → vs.length ≤ s0.params.capacity →
    ∃ t, execAll (vs.map Instr.qinsert) s = .next t ∧
      (exec .qisfull t = .next { t with result := some (.bit (decide (vs.length = s0.params.capacity))) }) ∧
      (vs.length = s0.params.capacity →
        t.queue.rd = 0 ∧ t.queue.wr = 0 ∧
        ∀ v, exec (.qinsert v) t = .fault (.queueOverflow v 0 0 s0.params.capacity))

/-! ## Relay phases -/

/-- R89: the phase codes 0, 1, 2, never 3, equal to the `fn` field of the phase's word, and the successor cycle. -/
def Obligations.PhaseCodesAndSuccessors : Prop :=
  Phase.ingress.code = 0 ∧ Phase.egress.code = 1 ∧ Phase.housekeep.code = 2 ∧
  (∀ p : Phase, p.code ≠ 3 ∧ (fnField (encode (phaseInstr p))).toNat = p.code.toNat) ∧
  Phase.ingress.next = .egress ∧ Phase.egress.next = .housekeep ∧ Phase.housekeep.next = .ingress

/-- R161: a relay phase that is not the current one is refused and changes nothing but `refused`; a phase that completes
was the current one and hands over to its successor; every other operation leaves `phase`. -/
def Obligations.PhasesRunInOrderOnly : Prop :=
  (∀ (s : State) (p : Phase), s.phase ≠ p →
    exec (phaseInstr p) s = .refused .outOfPhase ∧
    stopState s (exec (phaseInstr p) s) = { s with book := { s.book with refused := true } }) ∧
  (∀ (s t : State) (p : Phase), exec (phaseInstr p) s = .next t → s.phase = p ∧ t.phase = p.next) ∧
  ∀ (s t : State) (i : Instr), i.isPhase = false → exec i s = .next t → t.phase = s.phase

/-- R145: INGRESS on a full queue makes no call and changes nothing but the phase. -/
def Obligations.IngressSkipsWhenFull : Prop :=
  ∀ s : State, s.phase = .ingress → s.queue.count = s.params.capacity →
    exec .ingress s = .next { s with phase := .egress, result := none }

/-- R143, R144, R146, R92: INGRESS on a queue with room makes one `ReceiveByte` call, with the listed answer or, where none
is listed, any; a negative answer changes no queue state, any other has its low byte inserted; of the working registers
only `rxr` can change (log 6). -/
def Obligations.IngressTakesAtMostOneByte : Prop :=
  ∀ s : State, s.phase = .ingress → s.queue.count < s.params.capacity → s.queue.wr < s.params.capacity →
    ∃ (t : State) (a : Half), exec .ingress s = .next t ∧
      (∀ x xs, s.inputs.rxIn = x :: xs → a = x) ∧
      t = { s with
        queue := t.queue
        phase := .egress
        work := { s.work with rxr := t.work.rxr }
        inputs := { s.inputs with rxIn := s.inputs.rxIn.tail }
        trace := s.trace ++ [.receiveByte a]
        result := none
        draws := t.draws } ∧
      if a.msb = true then t.queue = s.queue
      else
        t.queue.rd = s.queue.rd ∧
        t.queue.wr = (s.queue.wr + 1) % s.params.capacity ∧
        t.queue.count = s.queue.count + 1 ∧
        t.queue.storage.read s.queue.wr = some (a.extractLsb' 0 8) ∧
        ∀ i, i ≠ s.queue.wr → t.queue.storage.read i = s.queue.storage.read i

/-- R147 to R152: one EGRESS pass. The sink is probed once, with the listed answer or any; if it is ready, up to
`min(count, CHUNK_LIMIT - 1)` bytes of the content are offered in order, each with the listed answer or any, until one
send fails; exactly the bytes sent leave the queue; the store and `wr` stay. That `rxr` stays is the model's (log 6). -/
def Obligations.EgressSendsUpToTheQuota : Prop :=
  ∀ s : State, s.phase = .egress → QueueInv s →
    ∃ (t : State) (ready : Bool) (bytes : List Byte) (sts : List Status),
      exec .egress s = .next t ∧
      s.content = bytes.map some ∧
      (∀ x xs, s.inputs.readyIn = x :: xs → ready = x) ∧
      (∀ k < sts.length, k < s.inputs.sendIn.length → sts[k]? = s.inputs.sendIn[k]?) ∧
      sts.length ≤ (if ready then min s.queue.count (s.params.chunkLimit - 1) else 0) ∧
      (∀ st ∈ sts.dropLast, isSent st = true) ∧
      (sts.length < (if ready then min s.queue.count (s.params.chunkLimit - 1) else 0) →
        ∃ st, sts.getLast? = some st ∧ isSent st = false) ∧
      t = { s with
        queue := { s.queue with
          rd := (s.queue.rd + sts.countP isSent) % s.params.capacity
          count := s.queue.count - sts.countP isSent }
        phase := .housekeep
        work := { t.work with rxr := s.work.rxr }
        inputs := { s.inputs with
          readyIn := s.inputs.readyIn.tail
          sendIn := s.inputs.sendIn.drop sts.length }
        trace := s.trace ++ .isSendReady ready :: List.zipWith Event.sendByte bytes sts
        result := none
        draws := t.draws } ∧
      t.content = s.content.drop (sts.countP isSent)

/-- R154: HOUSEKEEP calls `PeriodicTask` once, hands over to INGRESS and changes nothing else. -/
def Obligations.HousekeepCallsPeriodicTask : Prop :=
  ∀ s : State, s.phase = .housekeep →
    exec .housekeep s = .next { s with phase := .ingress, trace := s.trace ++ [.periodicTask], result := none }

/-- R157: the bounds of one iteration. -/
def Obligations.IterationBounds : Prop :=
  ∀ s : State, QueueInv s → s.phase = .ingress →
    ∃ (m t : State) (new : List Event),
      exec .ingress s = .next m ∧ execAll [.ingress, .egress, .housekeep] s = .next t ∧
      t.trace = s.trace ++ new ∧ t.phase = .ingress ∧
      new.countP Event.isReceive ≤ 1 ∧ new.countP Event.isProbe = 1 ∧
      new.countP Event.isSend ≤ min m.queue.count (s.params.chunkLimit - 1) ∧
      new.countP Event.isFailedSend ≤ 1 ∧ new.countP Event.isHousekeeping = 1 ∧
      t.queue.count ≤ s.queue.count + 1 ∧ s.queue.count ≤ t.queue.count + (s.params.chunkLimit - 1)

/-- R247: with `CHUNK_LIMIT = 1` an EGRESS sends nothing and leaves the queue as it is. -/
def Obligations.ChunkLimitOneStalls : Prop :=
  ∀ s : State, s.phase = .egress → s.params.chunkLimit = 1 →
    ∃ t ready, exec .egress s = .next t ∧ t.queue = s.queue ∧ t.trace = s.trace ++ [.isSendReady ready]

/-! ## Line encoding -/

/-- R173, R174, R175, R176: the MODE value is its three groups, OR-ed, for every record, and each group follows its field,
for every value of the field. -/
def Obligations.ModeGroupsFollowTheMapping : Prop :=
  (∀ (p : Params) (le : LineEncoding),
    modeOf p le = parityBits p le.parity ||| stopBits p le.stop ||| dataBits p le.databits) ∧
  ∀ (p : Params) (v : Byte),
    parityBits p 1 = p.mParOdd ∧ parityBits p 2 = p.mParEven ∧ (v ≠ 1 → v ≠ 2 → parityBits p v = 0) ∧
    stopBits p 2 = p.mStop2 ∧ (v ≠ 2 → stopBits p v = 0) ∧
    dataBits p 6 = p.mData6 ∧ dataBits p 7 = p.mData7 ∧ dataBits p 8 = p.mData6 ||| p.mData7 ∧
    (v ≠ 6 → v ≠ 7 → v ≠ 8 → dataBits p v = 0)

/-- R104: all MODE values under the default masks. -/
def Obligations.DefaultModeValues : Prop :=
  [(0 : Byte), 1, 2].map (fun parity => [(0 : Byte), 2].map fun stop => [(5 : Byte), 6, 7, 8].map fun databits =>
      modeOf Config.vectorParams ⟨9600, parity, stop, databits⟩) =
    [[[0x00, 0x02, 0x04, 0x06], [0x08, 0x0A, 0x0C, 0x0E]],
     [[0x30, 0x32, 0x34, 0x36], [0x38, 0x3A, 0x3C, 0x3E]],
     [[0x20, 0x22, 0x24, 0x26], [0x28, 0x2A, 0x2C, 0x2E]]]

/-- R10, R102, D36: with masks R10 allows, two in-domain encodings with the same MODE value ask for the same parity, stop
bits and data bits. -/
def Obligations.ModeValueTellsTheEncoding : Prop :=
  ∀ (p : Params) (a b : LineEncoding), p.wf = true →
    a.parity.toNat ≤ 2 → b.parity.toNat ≤ 2 → (a.stop = 0 ∨ a.stop = 2) → (b.stop = 0 ∨ b.stop = 2) →
    (a.databits = 6 ∨ a.databits = 7 ∨ a.databits = 8) → (b.databits = 6 ∨ b.databits = 7 ∨ b.databits = 8) →
    modeOf p a = modeOf p b → a.parity = b.parity ∧ a.stop = b.stop ∧ a.databits = b.databits

/-- R34, R102: bits of MODE outside the three groups are 0. -/
def Obligations.ModeBitsOutsideTheGroupsAreZero : Prop :=
  ∀ (p : Params) (le : LineEncoding) (k : Nat),
    (p.mParOdd ||| p.mParEven ||| p.mStop2 ||| p.mData6 ||| p.mData7).getLsbD k = false →
    (modeOf p le).getLsbD k = false

/-- R180: the default divisor is the quotient rounded to nearest, less one; it has no value exactly at baud 0 and where the
quotient is 0. The default body is general knowledge, not the source's (log 3). -/
def Obligations.DefaultDivisorBracketsTheClock : Prop :=
  ∀ fClk baud d : Nat,
    (usartDivisor fClk true baud = some d ↔
      baud ≠ 0 ∧ (d + 1) * baud ≤ fClk / 8 + baud / 2 ∧ fClk / 8 + baud / 2 < (d + 2) * baud) ∧
    (usartDivisor fClk true baud = none ↔ baud = 0 ∨ fClk / 8 + baud / 2 < baud)

/-- R177: SETLINE performs exactly the four writes, ENABLE off, DIVISOR, MODE, ENABLE on, in that order, whatever the
registers hold and whatever the LE record is, and nothing but LINECFG, the trace and the result changes. The divisor is
`DivisorOf` modulo 2^16 where that has a value (R179), else a free value (R181). -/
def Obligations.SetlineWritesFourRegistersInOrder : Prop :=
  ∀ s : State, ∃ (t : State) (d : Half),
    exec .setline s = .next t ∧
    (∀ x, divisorOf s.params.divisor true s.inputs.le.baud.toNat = some x →
      d.toNat = x % 2 ^ 16 ∧ t.draws = s.draws) ∧
    t = { s with
      line := ⟨modeOf s.params s.inputs.le, d, s.params.eRxie ||| s.params.eTxen ||| s.params.eRxen, .idle⟩
      trace := s.trace ++
        [.regWrite (.enable 0x00), .regWrite (.divisor d), .regWrite (.mode (modeOf s.params s.inputs.le)),
         .regWrite (.enable (s.params.eRxie ||| s.params.eTxen ||| s.params.eRxen))]
      result := none
      draws := t.draws }

/-- R178: after the first and until the last of SETLINE's writes ENABLE is 0x00, so DIVISOR and MODE are written only while
the transceiver is disabled, and the last write enables it. -/
def Obligations.RegistersChangeOnlyWhileDisabled : Prop :=
  ∀ (p : Params) (d : Half) (m : Byte) (l : Line),
    (∀ k, 1 ≤ k → k ≤ 3 → (((lineWrites p d m).take k).foldl Line.write l).enable = 0x00) ∧
    (∀ k w, (lineWrites p d m)[k]? = some w → (∃ v, w = .divisor v ∨ ∃ u, w = .mode u) → k = 1 ∨ k = 2) ∧
    ((lineWrites p d m).foldl Line.write l).enable = p.eRxie ||| p.eTxen ||| p.eRxen

/-- R184: SE's own test of the mapping, for any baud rate with a divisor. -/
def Obligations.OddEightEncodingMapsAsStated : Prop :=
  ∀ (s : State) (x : Nat), s.inputs.le.parity = 1 → s.inputs.le.stop = 0 → s.inputs.le.databits = 8 →
    divisorOf s.params.divisor true s.inputs.le.baud.toNat = some x →
    ∃ t, exec .setline s = .next t ∧
      t.line.mode = s.params.mParOdd ||| s.params.mData6 ||| s.params.mData7 ∧
      t.line.divisor = BitVec.ofNat 16 x ∧
      t.line.enable = s.params.eRxie ||| s.params.eTxen ||| s.params.eRxen ∧
      t.trace.getLast? = some (.regWrite (.enable (s.params.eRxie ||| s.params.eTxen ||| s.params.eRxen))) ∧
      (s.params = Config.vectorParams → t.line.mode = 0x36)

/-- R56, R110: the register numbers, 3 never used, and the data on the write port right-aligned. -/
def Obligations.WritePortNumbersAndData : Prop :=
  (∀ v, (RegWrite.mode v).number = 0 ∧ (RegWrite.mode v).wdata.toNat = v.toNat) ∧
  (∀ v, (RegWrite.divisor v).number = 1 ∧ (RegWrite.divisor v).wdata = v) ∧
  (∀ v, (RegWrite.enable v).number = 2 ∧ (RegWrite.enable v).wdata.toNat = v.toNat) ∧
  ∀ w : RegWrite, w.number ≠ 3

/-! ## The whole machine -/

/-- R8 to R11, R25, R26, R27, R37: every step keeps the machine's invariant. -/
def Obligations.StepKeepsTheInvariant : Prop :=
  ∀ s t : State, Inv s → step s = .next t → Inv t

/-- R200, R206: the deployed core never faults and is never refused anything: from a good state that meets the invariant,
with no command presented, every step has a next state of the same kind. -/
def Obligations.DeployedCoreNeverStops : Prop :=
  ∀ s : State, Inv s → Good s → Deployed s → ∃ t, step s = .next t ∧ Inv t ∧ Good t ∧ Deployed t

/-- R63, R155, R156: the deployed core loses, doubles and reorders no byte: the bytes received so far are the bytes sent so
far followed by the bytes queued, and every step keeps it so. -/
def Obligations.DeployedCoreConservesBytes : Prop :=
  ∀ s t : State, Inv s → Deployed s → Conserved s → step s = .next t → Conserved t

/-- R39, R40, R42: a step changes no parameter, never withdraws a fault, a refusal or the initialisation, and only adds to
the trace. That it starts from a run no fault and no refusal has ended is the model's reading of R203 and R207 (log 16). -/
def Obligations.StepsOnlyAddToTheRecord : Prop :=
  ∀ s t : State, step s = .next t →
    Good s ∧ t.params = s.params ∧ t.book.faults = s.book.faults ∧ t.book.refused = s.book.refused ∧
    (s.book.inited = true → t.book.inited = true) ∧ ∃ new, t.trace = s.trace ++ new

/-- R203, R207: a fault or a refusal ends the run: the state it leaves is no good state and takes no step. -/
def Obligations.StopsAreFinal : Prop :=
  ∀ s : State, (∀ t, step s ≠ .next t) →
    ¬ Good (stopState s (step s)) ∧ ∀ t, step (stopState s (step s)) ≠ .next t

/-- R41: no queue or relay operation reads or writes a LINECFG register, and SETLINE reads and writes no QUEUE or RELAY
state. -/
def Obligations.LineConfigAndRelayShareNothing : Prop :=
  (∀ (i : Instr) (s : State) (l : Line), i ≠ .setline →
    exec i (s.withLine l) = mapNext (fun t => t.withLine l) (exec i s)) ∧
  (∀ (i : Instr) (s t : State), i ≠ .setline → exec i s = .next t → t.line = s.line) ∧
  (∀ (s : State) (q : Queue) (p : Phase) (w : Working),
    exec .setline (((s.withQueue q).withPhase p).withWork w) =
      mapNext (fun t => ((t.withQueue q).withPhase p).withWork w) (exec .setline s)) ∧
  ∀ s t : State, exec .setline s = .next t → t.queue = s.queue ∧ t.phase = s.phase ∧ t.work = s.work

/-- R64, R210: where a SETLINE stands relative to another operation does not show: both orders complete or neither does,
with the same state but for the interleaving of two disjoint traces (and the last result), and each collaborator's slice
the same. Where the divisor is a free value the two orders may take different ones. -/
def Obligations.SetlineCommutesWithTheRelay : Prop :=
  ∀ (s : State) (i : Instr) (d : Nat), i ≠ .setline →
    divisorOf s.params.divisor true s.inputs.le.baud.toNat = some d →
    ((∃ t, execAll [.setline, i] s = .next t) ↔ ∃ u, execAll [i, .setline] s = .next u) ∧
    ∀ t u, execAll [.setline, i] s = .next t → execAll [i, .setline] s = .next u →
      u = { t with trace := u.trace, result := u.result } ∧
      lineSlice t.trace = lineSlice u.trace ∧ usbSlice t.trace = usbSlice u.trace

/-- R21, R22, R23, R24, R51: the store is written by QINSERT and INGRESS alone, `rd` by QINIT, QREMOVE and EGRESS, `wr` by
QINIT, QINSERT and INGRESS, and no query, HOUSEKEEP or SETLINE touches QUEUE. -/
def Obligations.QueueWritersAreTheNamedOnes : Prop :=
  ∀ (i : Instr) (s t : State), exec i s = .next t →
    (i.inserted = none → i ≠ .ingress → t.queue.storage = s.queue.storage) ∧
    (i ≠ .qinit → i ≠ .qremove → i ≠ .egress → t.queue.rd = s.queue.rd) ∧
    (i ≠ .qinit → i.inserted = none → i ≠ .ingress → t.queue.wr = s.queue.wr) ∧
    (i = .qisfull ∨ i = .qisempty ∨ i = .qcount ∨ i = .qpeek ∨ i = .housekeep ∨ i = .setline → t.queue = s.queue)

/-- R13, R249: no step depends on which transport the sink is. -/
def Obligations.SinkChoiceIsInvisible : Prop :=
  ∀ (s : State) (k : Sink), step (s.withSink k) = mapNext (fun t => t.withSink k) (step s)

/-! ## Fairness -/

/-- R253: a pending notification is eventually handled. In the deployed core, after some number of steps the next step
handles the oldest one: a SETLINE with its snapshot, or nothing for a lifecycle notification. The schedule, and
that no notification arrives but those listed, is the model's (log 11, log 27). -/
def Obligations.NotificationIsEventuallyHandled : Prop :=
  ∀ (s : State) (n : Notice) (rest : List Notice),
    Inv s → Good s → Deployed s → s.inputs.notices = n :: rest →
    ∃ (k : Nat) (u v t : State),
      stepAll k s = .next u ∧ u.inputs.notices = n :: rest ∧ u.line = s.line ∧
      step u = .next t ∧ t.inputs.notices = rest ∧ Inv t ∧ Good t ∧ Deployed t ∧
      v = { u with inputs := v.inputs, draws := v.draws } ∧
      match n with
      | .lineEncodingChanged le => v.inputs.le = le ∧ exec .setline v = .next t
      | .lifecycle _ => t = v

/-- R253: the relay agent is scheduled again and again. In the deployed core, after at most as many steps as notifications
wait, the next step is the relay's phase, and the core goes on from there. The schedule, and that no
notification arrives but those listed, is the model's (log 11, log 27). -/
def Obligations.RelayIsScheduledAgain : Prop :=
  ∀ s : State, Inv s → Good s → Deployed s →
    ∃ (k : Nat) (u v t : State),
      k ≤ s.inputs.notices.length ∧ stepAll k s = .next u ∧ u.queue = s.queue ∧ u.phase = s.phase ∧
      step u = .next t ∧ v = { u with inputs := v.inputs, draws := v.draws } ∧
      exec (phaseInstr s.phase) v = .next t ∧ t.phase = s.phase.next ∧ Inv t ∧ Good t ∧ Deployed t
end

