-- ==== Sys2Proof/Laws/Memory.lean ====
section
/-!
SUPPORT. The laws of the backing store: a read after a write, the canonical form kept, the indices kept in range
(spec/20_memory.md R52, R53).
-/
namespace Sys2Proof.Machine

open Sys2Proof

@[simp] theorem Memory.read_nil (i : Nat) : Memory.read [] i = none := rfl

/-- A write leaves every other cell alone (R53). -/
theorem Memory.read_write_ne {i j : Nat} (h : j ≠ i) (m : Memory) (v : Byte) :
    (m.write i v).read j = m.read j := by
  induction m with
  | nil => simp [Memory.write, Memory.read, Ne.symm h]
  | cons c m ih =>
    obtain ⟨a, u⟩ := c
    unfold Memory.write
    split
    · simp [Memory.read, Ne.symm h]
    · split
      · rename_i _ ha
        subst ha
        simp [Memory.read, Ne.symm h]
      · simp only [Memory.read, ih]

/-- The store rises from above `low`: the form of `Memory.risesFrom` a proof uses. -/
theorem Memory.risesFrom_cons {low a : Nat} {u : Byte} {m : Memory} :
    Memory.risesFrom (some low) ((a, u) :: m) = true ↔ low < a ∧ Memory.risesFrom (some a) m = true := by
  simp [Memory.risesFrom]

/-- A write of a cell gives its byte (R53). -/
theorem Memory.read_write_self (m : Memory) (i : Nat) (v : Byte) : (m.write i v).read i = some v := by
  induction m with
  | nil => simp [Memory.write, Memory.read]
  | cons c m ih =>
    obtain ⟨a, u⟩ := c
    unfold Memory.write
    split
    · simp [Memory.read]
    · split
      · simp [Memory.read]
      · rename_i _ ha
        simp only [Memory.read, ih]
        rw [if_neg (fun h => ha h.symm)]

/-- Both cases of a read after a write. -/
theorem Memory.read_write (m : Memory) (i j : Nat) (v : Byte) :
    (m.write i v).read j = if j = i then some v else m.read j := by
  split
  · rename_i h
    subst h
    exact m.read_write_self j v
  · rename_i h
    exact Memory.read_write_ne h m v

theorem Memory.risesFrom_write {low i : Nat} (hi : low < i) (v : Byte) (m : Memory)
    (hm : Memory.risesFrom (some low) m = true) : Memory.risesFrom (some low) (m.write i v) = true := by
  induction m generalizing low with
  | nil => simp [Memory.write, Memory.risesFrom, hi]
  | cons c m ih =>
    obtain ⟨a, u⟩ := c
    obtain ⟨hla, hm⟩ := Memory.risesFrom_cons.mp hm
    unfold Memory.write
    split
    · rename_i h
      exact Memory.risesFrom_cons.mpr ⟨hi, Memory.risesFrom_cons.mpr ⟨h, hm⟩⟩
    · split
      · rename_i _ h
        subst h
        exact Memory.risesFrom_cons.mpr ⟨hi, hm⟩
      · exact Memory.risesFrom_cons.mpr ⟨hla, ih (by omega) hm⟩

/-- Nothing listed equals what an unlisted cell reads as. -/
theorem Memory.all_listed (m : Memory) : (m.all fun c => decide (some c.2 ≠ Memory.unlisted)) = true := by
  simp [Memory.unlisted]

/-- The canonical form is that the indices rise. -/
theorem Memory.wf_iff (m : Memory) : m.wf = true ↔ Memory.risesFrom none m = true := by
  simp [Memory.wf, Memory.unlisted]

@[simp] theorem Memory.wf_nil : Memory.wf [] = true := rfl

/-- A write keeps the canonical form. -/
theorem Memory.wf_write {m : Memory} (h : m.wf = true) (i : Nat) (v : Byte) : (m.write i v).wf = true := by
  rw [Memory.wf_iff] at *
  cases m with
  | nil => rfl
  | cons c m =>
    obtain ⟨a, u⟩ := c
    have h' : Memory.risesFrom (some a) m = true := h
    unfold Memory.write
    split
    · rename_i hi
      have := Memory.risesFrom_cons (u := u) |>.mpr ⟨hi, h'⟩
      exact this
    · split
      · rename_i _ hi
        subst hi
        exact h'
      · exact Memory.risesFrom_write (by omega) v m h'

/-- A written cell is the one asked for or was listed before. -/
theorem Memory.mem_write {m : Memory} {i : Nat} {v : Byte} {c : Host.Cell} (h : c ∈ m.write i v) :
    c = (i, v) ∨ c ∈ m := by
  induction m with
  | nil => simpa [Memory.write] using h
  | cons d m ih =>
    obtain ⟨a, u⟩ := d
    unfold Memory.write at h
    split at h
    · simpa using h
    · split at h
      · simp only [List.mem_cons] at h ⊢
        tauto
      · simp only [List.mem_cons] at h ⊢
        obtain h | h := h
        · exact .inr (.inl h)
        · have := ih h
          tauto

/-- A write at a cell of the store keeps every listed index in the store. -/
theorem Memory.write_inStore {m : Memory} {n i : Nat} (hm : ∀ c ∈ m, c.1 < n) (hi : i < n) (v : Byte) :
    ∀ c ∈ m.write i v, c.1 < n := by
  intro c hc
  obtain rfl | hc := Memory.mem_write hc
  · exact hi
  · exact hm c hc

end Sys2Proof.Machine
end

