-- ==== Sys2Proof/Laws/State.lean ====
section
/-!
SUPPORT. What each update of the state leaves in each field: one lemma per update and field, true by rfl, so that no
proof unfolds a record update.
-/
namespace Sys2Proof.Machine

@[simp] theorem State.withQueue_params (s : State) (q : Queue) : (s.withQueue q).params = s.params := rfl
@[simp] theorem State.withQueue_queue (s : State) (q : Queue) : (s.withQueue q).queue = q := rfl
@[simp] theorem State.withQueue_phase (s : State) (q : Queue) : (s.withQueue q).phase = s.phase := rfl
@[simp] theorem State.withQueue_work (s : State) (q : Queue) : (s.withQueue q).work = s.work := rfl
@[simp] theorem State.withQueue_line (s : State) (q : Queue) : (s.withQueue q).line = s.line := rfl
@[simp] theorem State.withQueue_book (s : State) (q : Queue) : (s.withQueue q).book = s.book := rfl
@[simp] theorem State.withQueue_inputs (s : State) (q : Queue) : (s.withQueue q).inputs = s.inputs := rfl
@[simp] theorem State.withQueue_trace (s : State) (q : Queue) : (s.withQueue q).trace = s.trace := rfl
@[simp] theorem State.withQueue_result (s : State) (q : Queue) : (s.withQueue q).result = s.result := rfl
@[simp] theorem State.withQueue_draws (s : State) (q : Queue) : (s.withQueue q).draws = s.draws := rfl

@[simp] theorem State.withPhase_params (s : State) (p : Phase) : (s.withPhase p).params = s.params := rfl
@[simp] theorem State.withPhase_queue (s : State) (p : Phase) : (s.withPhase p).queue = s.queue := rfl
@[simp] theorem State.withPhase_phase (s : State) (p : Phase) : (s.withPhase p).phase = p := rfl
@[simp] theorem State.withPhase_work (s : State) (p : Phase) : (s.withPhase p).work = s.work := rfl
@[simp] theorem State.withPhase_line (s : State) (p : Phase) : (s.withPhase p).line = s.line := rfl
@[simp] theorem State.withPhase_book (s : State) (p : Phase) : (s.withPhase p).book = s.book := rfl
@[simp] theorem State.withPhase_inputs (s : State) (p : Phase) : (s.withPhase p).inputs = s.inputs := rfl
@[simp] theorem State.withPhase_trace (s : State) (p : Phase) : (s.withPhase p).trace = s.trace := rfl
@[simp] theorem State.withPhase_result (s : State) (p : Phase) : (s.withPhase p).result = s.result := rfl
@[simp] theorem State.withPhase_draws (s : State) (p : Phase) : (s.withPhase p).draws = s.draws := rfl

@[simp] theorem State.withWork_params (s : State) (w : Working) : (s.withWork w).params = s.params := rfl
@[simp] theorem State.withWork_queue (s : State) (w : Working) : (s.withWork w).queue = s.queue := rfl
@[simp] theorem State.withWork_phase (s : State) (w : Working) : (s.withWork w).phase = s.phase := rfl
@[simp] theorem State.withWork_work (s : State) (w : Working) : (s.withWork w).work = w := rfl
@[simp] theorem State.withWork_line (s : State) (w : Working) : (s.withWork w).line = s.line := rfl
@[simp] theorem State.withWork_book (s : State) (w : Working) : (s.withWork w).book = s.book := rfl
@[simp] theorem State.withWork_inputs (s : State) (w : Working) : (s.withWork w).inputs = s.inputs := rfl
@[simp] theorem State.withWork_trace (s : State) (w : Working) : (s.withWork w).trace = s.trace := rfl
@[simp] theorem State.withWork_result (s : State) (w : Working) : (s.withWork w).result = s.result := rfl
@[simp] theorem State.withWork_draws (s : State) (w : Working) : (s.withWork w).draws = s.draws := rfl

@[simp] theorem State.withLine_params (s : State) (l : Line) : (s.withLine l).params = s.params := rfl
@[simp] theorem State.withLine_queue (s : State) (l : Line) : (s.withLine l).queue = s.queue := rfl
@[simp] theorem State.withLine_phase (s : State) (l : Line) : (s.withLine l).phase = s.phase := rfl
@[simp] theorem State.withLine_work (s : State) (l : Line) : (s.withLine l).work = s.work := rfl
@[simp] theorem State.withLine_line (s : State) (l : Line) : (s.withLine l).line = l := rfl
@[simp] theorem State.withLine_book (s : State) (l : Line) : (s.withLine l).book = s.book := rfl
@[simp] theorem State.withLine_inputs (s : State) (l : Line) : (s.withLine l).inputs = s.inputs := rfl
@[simp] theorem State.withLine_trace (s : State) (l : Line) : (s.withLine l).trace = s.trace := rfl
@[simp] theorem State.withLine_result (s : State) (l : Line) : (s.withLine l).result = s.result := rfl
@[simp] theorem State.withLine_draws (s : State) (l : Line) : (s.withLine l).draws = s.draws := rfl

@[simp] theorem State.withBook_params (s : State) (b : Book) : (s.withBook b).params = s.params := rfl
@[simp] theorem State.withBook_queue (s : State) (b : Book) : (s.withBook b).queue = s.queue := rfl
@[simp] theorem State.withBook_phase (s : State) (b : Book) : (s.withBook b).phase = s.phase := rfl
@[simp] theorem State.withBook_work (s : State) (b : Book) : (s.withBook b).work = s.work := rfl
@[simp] theorem State.withBook_line (s : State) (b : Book) : (s.withBook b).line = s.line := rfl
@[simp] theorem State.withBook_book (s : State) (b : Book) : (s.withBook b).book = b := rfl
@[simp] theorem State.withBook_inputs (s : State) (b : Book) : (s.withBook b).inputs = s.inputs := rfl
@[simp] theorem State.withBook_trace (s : State) (b : Book) : (s.withBook b).trace = s.trace := rfl
@[simp] theorem State.withBook_result (s : State) (b : Book) : (s.withBook b).result = s.result := rfl
@[simp] theorem State.withBook_draws (s : State) (b : Book) : (s.withBook b).draws = s.draws := rfl

@[simp] theorem State.withInputs_params (s : State) (i : Inputs) : (s.withInputs i).params = s.params := rfl
@[simp] theorem State.withInputs_queue (s : State) (i : Inputs) : (s.withInputs i).queue = s.queue := rfl
@[simp] theorem State.withInputs_phase (s : State) (i : Inputs) : (s.withInputs i).phase = s.phase := rfl
@[simp] theorem State.withInputs_work (s : State) (i : Inputs) : (s.withInputs i).work = s.work := rfl
@[simp] theorem State.withInputs_line (s : State) (i : Inputs) : (s.withInputs i).line = s.line := rfl
@[simp] theorem State.withInputs_book (s : State) (i : Inputs) : (s.withInputs i).book = s.book := rfl
@[simp] theorem State.withInputs_inputs (s : State) (i : Inputs) : (s.withInputs i).inputs = i := rfl
@[simp] theorem State.withInputs_trace (s : State) (i : Inputs) : (s.withInputs i).trace = s.trace := rfl
@[simp] theorem State.withInputs_result (s : State) (i : Inputs) : (s.withInputs i).result = s.result := rfl
@[simp] theorem State.withInputs_draws (s : State) (i : Inputs) : (s.withInputs i).draws = s.draws := rfl

@[simp] theorem State.returns_params (s : State) (r : Option Result) : (s.returns r).params = s.params := rfl
@[simp] theorem State.returns_queue (s : State) (r : Option Result) : (s.returns r).queue = s.queue := rfl
@[simp] theorem State.returns_phase (s : State) (r : Option Result) : (s.returns r).phase = s.phase := rfl
@[simp] theorem State.returns_work (s : State) (r : Option Result) : (s.returns r).work = s.work := rfl
@[simp] theorem State.returns_line (s : State) (r : Option Result) : (s.returns r).line = s.line := rfl
@[simp] theorem State.returns_book (s : State) (r : Option Result) : (s.returns r).book = s.book := rfl
@[simp] theorem State.returns_inputs (s : State) (r : Option Result) : (s.returns r).inputs = s.inputs := rfl
@[simp] theorem State.returns_trace (s : State) (r : Option Result) : (s.returns r).trace = s.trace := rfl
@[simp] theorem State.returns_result (s : State) (r : Option Result) : (s.returns r).result = r := rfl
@[simp] theorem State.returns_draws (s : State) (r : Option Result) : (s.returns r).draws = s.draws := rfl

@[simp] theorem State.record_params (s : State) (e : Event) : (s.record e).params = s.params := rfl
@[simp] theorem State.record_queue (s : State) (e : Event) : (s.record e).queue = s.queue := rfl
@[simp] theorem State.record_phase (s : State) (e : Event) : (s.record e).phase = s.phase := rfl
@[simp] theorem State.record_work (s : State) (e : Event) : (s.record e).work = s.work := rfl
@[simp] theorem State.record_line (s : State) (e : Event) : (s.record e).line = s.line := rfl
@[simp] theorem State.record_book (s : State) (e : Event) : (s.record e).book = s.book := rfl
@[simp] theorem State.record_inputs (s : State) (e : Event) : (s.record e).inputs = s.inputs := rfl
@[simp] theorem State.record_trace (s : State) (e : Event) : (s.record e).trace = s.trace ++ [e] := rfl
@[simp] theorem State.record_result (s : State) (e : Event) : (s.record e).result = s.result := rfl
@[simp] theorem State.record_draws (s : State) (e : Event) : (s.record e).draws = s.draws := rfl

@[simp] theorem State.tick_params (s : State) : s.tick.params = s.params := rfl
@[simp] theorem State.tick_queue (s : State) : s.tick.queue = s.queue := rfl
@[simp] theorem State.tick_phase (s : State) : s.tick.phase = s.phase := rfl
@[simp] theorem State.tick_work (s : State) : s.tick.work = s.work := rfl
@[simp] theorem State.tick_line (s : State) : s.tick.line = s.line := rfl
@[simp] theorem State.tick_book (s : State) : s.tick.book = s.book := rfl
@[simp] theorem State.tick_inputs (s : State) : s.tick.inputs = s.inputs := rfl
@[simp] theorem State.tick_trace (s : State) : s.tick.trace = s.trace := rfl
@[simp] theorem State.tick_result (s : State) : s.tick.result = s.result := rfl
@[simp] theorem State.tick_draws (s : State) : s.tick.draws = s.draws + 1 := rfl

end Sys2Proof.Machine
end

