-- ==== Sys2Proof/Laws/Ops.lean ====
section
/-!
SUPPORT. One lemma per shared operation that says once everything it can do: the storage accesses, the queue
operations' bodies, the environment calls.
-/
namespace Sys2Proof.Machine

open Sys2Proof

@[simp] theorem isFull_eq (s : State) : isFull s = true ↔ s.queue.count = s.params.capacity := by simp [isFull]

@[simp] theorem isEmpty_eq (s : State) : isEmpty s = true ↔ s.queue.count = 0 := by simp [isEmpty]

/-- A storage read that answers: the cell's byte, or a free byte where the cell is unwritten; only the counter of free
values can change (R52). -/
theorem memRead_ok {s s' : State} {i : Nat} {v : Byte} (h : memRead s i = .ok (v, s')) :
    i < s.params.capacity ∧
    ((s.queue.storage.read i = some v ∧ s' = s) ∨
     (s.queue.storage.read i = none ∧ v = Config.freeCell s.draws ∧ s' = s.tick)) := by
  unfold memRead at h
  split at h
  · rename_i hi
    refine ⟨hi, ?_⟩
    split at h
    · rename_i u hu
      simp only [Except.ok.injEq, Prod.mk.injEq] at h
      obtain ⟨rfl, rfl⟩ := h
      exact .inl ⟨hu, rfl⟩
    · rename_i hu
      simp only [Except.ok.injEq, Prod.mk.injEq] at h
      obtain ⟨rfl, rfl⟩ := h
      exact .inr ⟨hu, rfl, rfl⟩
  · simp at h

/-- A read of a written cell answers its byte and changes nothing (R52). -/
theorem memRead_written {s : State} {i : Nat} {v : Byte} (hi : i < s.params.capacity)
    (hv : s.queue.storage.read i = some v) : memRead s i = .ok (v, s) := by
  simp [memRead, hi, hv]

/-- A read of an unwritten cell answers a free byte (R52, U4). -/
theorem memRead_unwritten {s : State} {i : Nat} (hi : i < s.params.capacity)
    (hv : s.queue.storage.read i = none) : memRead s i = .ok (Config.freeCell s.draws, s.tick) := by
  simp [memRead, hi, hv]

/-- A write at a cell of the store (R53). -/
theorem memWrite_inStore {s : State} {i : Nat} (hi : i < s.params.capacity) (v : Byte) :
    memWrite s i v = .ok (s.withQueue { s.queue with storage := s.queue.storage.write i v }) := by
  simp [memWrite, hi]

/-- The queue after an insert of `v` (R124). -/
def Queue.inserted (q : Queue) (capacity : Nat) (v : Byte) : Queue where
  storage := q.storage.write q.wr v
  rd := q.rd
  wr := advanceCursor capacity q.wr
  count := q.count + 1

/-- The queue after a remove (R125). -/
def Queue.removed (q : Queue) (capacity : Nat) : Queue where
  storage := q.storage
  rd := advanceCursor capacity q.rd
  wr := q.wr
  count := q.count - 1

/-- QINSERT's body where it does not fault (R124). -/
theorem insertByte_next {s : State} (hc : s.queue.count ≠ s.params.capacity) (hw : s.queue.wr < s.params.capacity)
    (v : Byte) : insertByte s v = .ok (s.withQueue (s.queue.inserted s.params.capacity v)) := by
  have hf : isFull s = false := by simpa [isFull] using hc
  simp [insertByte, hf, memWrite_inStore hw, Queue.inserted, State.withQueue]

/-- Everything QINSERT's body can do when it answers (R124). -/
theorem insertByte_ok {s t : State} {v : Byte} (h : insertByte s v = .ok t) :
    s.queue.count ≠ s.params.capacity ∧ s.queue.wr < s.params.capacity ∧
    t = s.withQueue (s.queue.inserted s.params.capacity v) := by
  have hc : s.queue.count ≠ s.params.capacity := by
    intro hc
    simp [insertByte, isFull, hc] at h
  have hw : s.queue.wr < s.params.capacity := by
    by_contra hw
    have hf : isFull s = false := by simpa [isFull] using hc
    simp [insertByte, hf, memWrite, hw] at h
  refine ⟨hc, hw, ?_⟩
  rw [insertByte_next hc hw] at h
  exact (Except.ok.inj h).symm

/-- QREMOVE's body on a written head (R125). -/
theorem removeByte_next {s : State} {v : Byte} (hc : s.queue.count ≠ 0) (hr : s.queue.rd < s.params.capacity)
    (hv : s.queue.storage.read s.queue.rd = some v) :
    removeByte s = .ok (v, s.withQueue (s.queue.removed s.params.capacity)) := by
  have he : isEmpty s = false := by simpa [isEmpty] using hc
  simp [removeByte, he, memRead_written hr hv, Queue.removed]

/-- Everything QREMOVE's body can do when it answers (R125). -/
theorem removeByte_ok {s t : State} {v : Byte} (h : removeByte s = .ok (v, t)) :
    s.queue.count ≠ 0 ∧ ∃ s1, memRead s s.queue.rd = .ok (v, s1) ∧
    t = s1.withQueue (s.queue.removed s.params.capacity) := by
  unfold removeByte at h
  split at h
  · simp at h
  · rename_i he
    refine ⟨by simpa [isEmpty] using he, ?_⟩
    split at h
    · simp at h
    · rename_i u s1 hs1
      simp only [Except.ok.injEq, Prod.mk.injEq] at h
      obtain ⟨rfl, rfl⟩ := h
      refine ⟨s1, hs1, ?_⟩
      obtain ⟨-, ⟨-, rfl⟩ | ⟨-, -, rfl⟩⟩ := memRead_ok hs1 <;> simp [Queue.removed]

/-- `ReceiveByte` gives the listed answer or, where none is listed, any; it adds its call to the trace and touches the
inputs and the counter only (R91). -/
theorem receiveByte_spec (s : State) : ∃ a n, (∀ x xs, s.inputs.rxIn = x :: xs → a = x) ∧
    receiveByte s = (a, { s with
      inputs := { s.inputs with rxIn := s.inputs.rxIn.tail }
      trace := s.trace ++ [.receiveByte a]
      draws := n }) := by
  unfold receiveByte
  split
  · rename_i a rest h
    exact ⟨a, s.draws, by simp [h], by simp [h, State.record, State.withInputs]⟩
  · rename_i h
    exact ⟨_, s.draws + 1, by simp [h], by simp only [h, List.tail_nil]; rw [← h]; rfl⟩

/-- `IsSendReady` gives the listed answer or, where none is listed, any; it adds its call to the trace and touches the
inputs and the counter only (R95). -/
theorem isSendReady_spec (s : State) : ∃ a n, (∀ x xs, s.inputs.readyIn = x :: xs → a = x) ∧
    isSendReady s = (a, { s with
      inputs := { s.inputs with readyIn := s.inputs.readyIn.tail }
      trace := s.trace ++ [.isSendReady a]
      draws := n }) := by
  unfold isSendReady
  split
  · rename_i a rest h
    exact ⟨a, s.draws, by simp [h], by simp [h, State.record, State.withInputs]⟩
  · rename_i h
    exact ⟨_, s.draws + 1, by simp [h], by simp only [h, List.tail_nil]; rw [← h]; rfl⟩

/-- `SendByte` gives the listed answer or, where none is listed, any; it adds its call to the trace and touches the
inputs and the counter only (R94). -/
theorem sendByte_spec (s : State) (b : Byte) : ∃ a n, (∀ x xs, s.inputs.sendIn = x :: xs → a = x) ∧
    sendByte s b = (a, { s with
      inputs := { s.inputs with sendIn := s.inputs.sendIn.tail }
      trace := s.trace ++ [.sendByte b a]
      draws := n }) := by
  unfold sendByte
  split
  · rename_i a rest h
    exact ⟨a, s.draws, by simp [h], by simp [h, State.record, State.withInputs]⟩
  · rename_i h
    exact ⟨_, s.draws + 1, by simp [h], by simp only [h, List.tail_nil]; rw [← h]; rfl⟩

end Sys2Proof.Machine
end

