-- ==== Sys2Proof/Laws/Queue.lean ====
section
/-!
SUPPORT. The queue's content under the two bodies that change it, and the invariants they keep (spec/10_state.md R25 to
R27, spec/40_queue_ops.md R127).
-/
namespace Sys2Proof.Machine

open Sys2Proof

/-- Advancing a cursor and then `k` cells is advancing `k + 1` cells. -/
theorem advanceCursor_add (n r k : Nat) : (advanceCursor n r + k) % n = (r + (k + 1)) % n := by
  unfold advanceCursor
  rw [Nat.mod_add_mod]
  congr 1
  omega

/-- Two offsets below the capacity reach different cells. -/
theorem cell_ne {n r k c : Nat} (hk : k < c) (hc : c < n) : (r + k) % n ≠ (r + c) % n := by
  intro h
  have h' : k % n = c % n := Nat.ModEq.add_left_cancel' r h
  rw [Nat.mod_eq_of_lt (by omega), Nat.mod_eq_of_lt hc] at h'
  omega

/-- The content of a non-empty queue is its head and the content that a remove leaves (R125, R127). -/
theorem content_removed {s : State} (hc : s.queue.count ≠ 0) :
    s.content = s.queue.storage.read (s.queue.rd % s.params.capacity) ::
      (s.withQueue (s.queue.removed s.params.capacity)).content := by
  obtain ⟨c, hc'⟩ := Nat.exists_eq_succ_of_ne_zero hc
  simp only [State.content, hc', List.range_succ_eq_map, List.map_cons, List.map_map, Queue.removed,
    State.withQueue_queue, State.withQueue_params, Nat.succ_sub_one, Nat.add_zero]
  congr 1
  apply List.map_congr_left
  intro k _
  simp only [Function.comp_apply, advanceCursor_add, Nat.succ_eq_add_one]

/-- An insert appends its byte to the content (R124, R127). -/
theorem content_inserted {s : State} (hq : s.queue.wr = (s.queue.rd + s.queue.count) % s.params.capacity)
    (hc : s.queue.count < s.params.capacity) (v : Byte) :
    (s.withQueue (s.queue.inserted s.params.capacity v)).content = s.content ++ [some v] := by
  simp only [State.content, Queue.inserted, State.withQueue_queue, State.withQueue_params, List.range_succ,
    List.map_append, List.map_cons, List.map_nil]
  congr 1
  · apply List.map_congr_left
    intro k hk
    rw [Memory.read_write_ne]
    rw [hq]
    exact cell_ne (List.mem_range.mp hk) hc
  · rw [← hq, Memory.read_write_self]

/-- An insert into a queue with room keeps the invariants. -/
theorem Queue.Inv.inserted {n : Nat} {q : Queue} (h : q.Inv n) (hc : q.count ≠ n) (v : Byte) :
    (q.inserted n v).Inv n := by
  have hn : 0 < n := by have := h.rdInStore; omega
  have hlt : q.count < n := by have := h.countInRange; omega
  refine ⟨Memory.wf_write h.1 _ _, Memory.write_inStore h.2 h.4 v, h.3, Nat.mod_lt _ hn, hlt, ?_, ?_⟩
  · simp only [Queue.inserted, advanceCursor]
    rw [h.cursorRelation, Nat.mod_add_mod]
    congr 1
  · intro k hk
    simp only [Queue.inserted] at hk ⊢
    rw [Memory.read_write]
    split
    · rfl
    · rename_i hne
      have : k ≠ q.count := by
        rintro rfl
        exact hne h.cursorRelation.symm
      exact h.contentWritten _ (by omega)

/-- A remove from a non-empty queue keeps the invariants. -/
theorem Queue.Inv.removed {n : Nat} {q : Queue} (h : q.Inv n) (hc : q.count ≠ 0) : (q.removed n).Inv n := by
  have hn : 0 < n := by have := h.rdInStore; omega
  have hle := h.countInRange
  refine ⟨h.1, h.2, Nat.mod_lt _ hn, h.4, by simp only [Queue.removed]; omega, ?_, ?_⟩
  · simp only [Queue.removed]
    rw [advanceCursor_add, h.cursorRelation]
    congr 1
    omega
  · intro k hk
    simp only [Queue.removed] at hk ⊢
    rw [advanceCursor_add]
    exact h.contentWritten _ (by omega)

/-- The head of a non-empty queue is a written cell (R27). -/
theorem Queue.Inv.head {n : Nat} {q : Queue} (h : q.Inv n) (hc : q.count ≠ 0) :
    ∃ v, q.storage.read q.rd = some v := by
  have h0 := h.contentWritten 0 (by omega)
  rw [Nat.add_zero, Nat.mod_eq_of_lt h.rdInStore] at h0
  exact Option.isSome_iff_exists.mp h0

/-- The empty queue over a store in its form meets the invariants (R120). -/
theorem Queue.Inv.empty {n : Nat} {m : Memory} (hm : m.wf = true) (hin : ∀ c ∈ m, c.1 < n) (hn : 1 ≤ n) :
    (⟨m, 0, 0, 0⟩ : Queue).Inv n :=
  ⟨hm, hin, hn, hn, Nat.zero_le _, by simp, by simp⟩

end Sys2Proof.Machine
end

