-- ==== Sys2Proof/Laws/Exec.lean ====
section
/-!
SUPPORT. What each operation and a step can do when it answers a next state: one lemma per meaning, which proofs cite
instead of unfolding it.
-/
namespace Sys2Proof.Machine

open Sys2Proof

/-- `complete` answers a next state exactly where its argument does. -/
theorem complete_next {r : Except Fault State} {t : State} : complete r = .next t ↔ r = .ok t := by
  cases r <;> simp [complete, raise]

/-- A mapped result answers where the result does. -/
theorem map_ok {α β : Type} {f : α → β} {r : Except Fault α} {b : β} :
    r.map f = .ok b ↔ ∃ a, r = .ok a ∧ f a = b := by
  cases r <;> simp [Except.map]

/-- A run that has not ended is a good state. -/
theorem stopped_eq_none {s : State} : stopped s = none ↔ Good s := by
  unfold stopped Good
  cases s.book.faults with
  | cons f fs => simp
  | nil => cases s.book.refused <;> simp

/-- A run that has ended answers no next state. -/
theorem stopped_not_next {s t : State} {o : Host.Outcome State Fault Refusal} (h : stopped s = some o) :
    o ≠ .next t := by
  unfold stopped at h
  split at h
  · simp only [Option.some.injEq] at h
    subst h
    simp [raise]
  · split at h
    · simp only [Option.some.injEq] at h
      subst h
      simp [refuse]
    · simp at h

/-- A step from a good state does what is fetched. -/
theorem step_of_good {s : State} (h : Good s) : step s =
    match fetch s with
    | .run i t => exec i t
    | .idle t => .next t
    | .refuse r => refuse r := by
  have hs := stopped_eq_none.mpr h
  unfold step
  generalize stopped s = o at hs
  subst hs
  rfl

/-- Everything a step that answers can be. -/
theorem step_next {s t : State} (h : step s = .next t) :
    Good s ∧ ((∃ i u, fetch s = .run i u ∧ exec i u = .next t) ∨ fetch s = .idle t) := by
  have hg : Good s := by
    rw [← stopped_eq_none]
    cases hs : stopped s with
    | none => rfl
    | some o => simp [step, hs] at h; exact absurd h (stopped_not_next hs)
  refine ⟨hg, ?_⟩
  rw [step_of_good hg] at h
  split at h
  · rename_i i u hf
    exact .inl ⟨i, u, hf, h⟩
  · rename_i u hf
    simp only [Host.Outcome.next.injEq] at h
    exact .inr (h ▸ hf)
  · simp [refuse] at h

/-- Everything taking a turn can do: the listed turn is consumed, or a wait is drawn that ends with the notification
(R214, R253). -/
theorem takeTurn_cases (s : State) :
    (∃ t ts, s.inputs.turns = t :: ts ∧ takeTurn s = (t, s.withInputs { s.inputs with turns := ts })) ∨
    (s.inputs.turns = [] ∧ takeTurn s = (.notice, s.tick)) ∨
    ∃ k, s.inputs.turns = [] ∧ takeTurn s = (.relay, s.tick.withInputs { s.inputs with turns := turnsLeft k }) := by
  unfold takeTurn
  split
  · rename_i t ts h
    exact .inl ⟨t, ts, h, rfl⟩
  · rename_i h
    split
    · exact .inr (.inl ⟨h, rfl⟩)
    · rename_i k _
      exact .inr (.inr ⟨k, h, rfl⟩)

/-- What the fetch hands on differs from the state it looked at in the inputs and the counter only. -/
theorem fetch_frame {s : State} :
    (∀ i u, fetch s = .run i u → ∃ x n, u = { s with inputs := x, draws := n }) ∧
    (∀ u, fetch s = .idle u → ∃ x n, u = { s with inputs := x, draws := n }) := by
  have hturn : ∃ x n, (takeTurn s).2 = { s with inputs := x, draws := n } := by
    obtain ⟨t, ts, -, h⟩ | ⟨-, h⟩ | ⟨k, -, h⟩ := takeTurn_cases s
    · exact ⟨_, s.draws, by rw [h]; rfl⟩
    · exact ⟨s.inputs, s.draws + 1, by rw [h]; rfl⟩
    · exact ⟨_, s.draws + 1, by rw [h]; rfl⟩
  constructor
  · intro i u h
    unfold fetch at h
    split at h
    · unfold fetchCommand at h
      split at h
      · split at h
        · simp only [Fetched.run.injEq] at h
          exact ⟨_, s.draws, h.2.symm⟩
        · simp at h
      all_goals first
        | (simp only [Fetched.run.injEq] at h; exact ⟨_, s.draws, h.2.symm⟩)
        | simp at h
    · unfold fetchDeployed at h
      split at h
      · simp only [Fetched.run.injEq] at h
        exact ⟨s.inputs, s.draws, h.2.symm⟩
      · obtain ⟨x, n, ht⟩ := hturn
        split at h
        · rename_i s1 hs1
          rw [hs1] at ht
          simp only [Fetched.run.injEq] at h
          exact ⟨x, n, h.2.symm.trans ht⟩
        · rename_i s1 hs1
          rw [hs1] at ht
          unfold fetchNotice at h
          split at h
          · simp only [Fetched.run.injEq] at h
            simp only at ht
            subst ht
            exact ⟨_, n, h.2.symm⟩
          · simp at h
  · intro u h
    unfold fetch at h
    split at h
    · unfold fetchCommand at h
      split at h
      · split at h <;> simp at h
      all_goals first
        | (simp only [Fetched.idle.injEq] at h; exact ⟨_, s.draws, h.symm⟩)
        | simp at h
    · unfold fetchDeployed at h
      split at h
      · simp at h
      · obtain ⟨x, n, ht⟩ := hturn
        split at h
        · simp at h
        · rename_i s1 hs1
          rw [hs1] at ht
          unfold fetchNotice at h
          split at h
          · simp at h
          · simp only [Fetched.idle.injEq] at h
            simp only at ht
            subst ht
            exact ⟨_, n, h.symm⟩

/-- QINIT that completes (R120). -/
theorem execQinit_next {s t : State} (h : execQinit s = .next t) :
    s.book.inited = false ∧ t = { s with
      queue := ⟨s.queue.storage, 0, 0, 0⟩
      book := { s.book with inited := true }
      result := none } := by
  unfold execQinit at h
  split at h
  · simp [refuse] at h
  · rename_i hi
    simp only [Host.Outcome.next.injEq] at h
    exact ⟨by simpa using hi, h.symm⟩

/-- QINSERT that completes (R124). -/
theorem execQinsert_next {s t : State} {v : Byte} (h : execQinsert v s = .next t) :
    s.queue.count ≠ s.params.capacity ∧ s.queue.wr < s.params.capacity ∧
    t = { s with queue := s.queue.inserted s.params.capacity v, result := none } := by
  obtain ⟨a, ha, rfl⟩ := map_ok.mp (complete_next.mp h)
  obtain ⟨hc, hw, rfl⟩ := insertByte_ok ha
  exact ⟨hc, hw, rfl⟩

/-- QREMOVE that completes (R125). -/
theorem execQremove_next {s t : State} (h : execQremove s = .next t) :
    s.queue.count ≠ 0 ∧ s.queue.rd < s.params.capacity ∧ ∃ v n,
    (∀ u, s.queue.storage.read s.queue.rd = some u → v = u ∧ n = s.draws) ∧
    t = { s with queue := s.queue.removed s.params.capacity, result := some (.byte v), draws := n } := by
  obtain ⟨⟨v, a⟩, ha, rfl⟩ := map_ok.mp (complete_next.mp h)
  obtain ⟨hc, s1, hs1, rfl⟩ := removeByte_ok ha
  obtain ⟨hr, ⟨hv, rfl⟩ | ⟨hv, -, rfl⟩⟩ := memRead_ok hs1
  · exact ⟨hc, hr, v, _, by simp [hv], rfl⟩
  · exact ⟨hc, hr, v, _, by simp [hv], rfl⟩

/-- QPEEK that completes (R126). -/
theorem execQpeek_next {s t : State} (h : execQpeek s = .next t) :
    s.queue.rd < s.params.capacity ∧ ∃ v n,
    (∀ u, s.queue.storage.read s.queue.rd = some u → v = u ∧ n = s.draws) ∧
    t = { s with result := some (.byte v), draws := n } := by
  obtain ⟨⟨v, a⟩, ha, rfl⟩ := map_ok.mp (complete_next.mp h)
  obtain ⟨hr, ⟨hv, rfl⟩ | ⟨hv, -, rfl⟩⟩ := memRead_ok ha
  · exact ⟨hr, v, _, by simp [hv], rfl⟩
  · exact ⟨hr, v, _, by simp [hv], rfl⟩

/-- SETLINE in one equation (R172): the four writes, the last values in the registers. -/
theorem execSetline_eq (s : State) : ∃ d n,
    divisorValue s s.inputs.le.baud = (d, { s with draws := n }) ∧
    execSetline s = .next { s with
      line := ⟨modeOf s.params s.inputs.le, d, enRun s.params, .idle⟩
      trace := s.trace ++ (lineWrites s.params d (modeOf s.params s.inputs.le)).map Event.regWrite
      result := none
      draws := n } := by
  have hd : ∀ l : Line, divisorValue { s with line := l } s.inputs.le.baud =
      ((divisorValue s s.inputs.le.baud).1, { (divisorValue s s.inputs.le.baud).2 with line := l }) := by
    intro l
    simp only [divisorValue]
    split <;> rfl
  have hn : ∃ n, (divisorValue s s.inputs.le.baud).2 = { s with draws := n } := by
    unfold divisorValue
    split
    · exact ⟨s.draws, rfl⟩
    · exact ⟨s.draws + 1, rfl⟩
  obtain ⟨n, hn⟩ := hn
  refine ⟨(divisorValue s s.inputs.le.baud).1, n, by rw [← hn], ?_⟩
  have hs : divisorValue (setHandler s .reconfiguring) s.inputs.le.baud =
      ((divisorValue s s.inputs.le.baud).1, ({ s with draws := n } : State).withLine { s.line with hstate := .reconfiguring }) := by
    rw [← hn]
    exact hd _
  unfold execSetline lineOperand
  simp only [hs]
  simp [lineWrites, regWrite, State.record, State.withLine, State.returns, Line.write, enOff, setHandler]

/-- HOUSEKEEP that completes (R154). -/
theorem execHousekeep_next {s t : State} (h : execHousekeep s = .next t) :
    s.phase = .housekeep ∧
    t = { s with phase := .ingress, trace := s.trace ++ [.periodicTask], result := none } := by
  unfold execHousekeep at h
  split at h
  · rename_i hp
    simp only [Host.Outcome.next.injEq] at h
    refine ⟨hp, h.symm.trans ?_⟩
    simp [State.endPhase, periodicTask, State.record, State.withPhase, State.returns, hp, Phase.next]
  · simp [refuse] at h

/-- INGRESS's body where the queue has room (R143). -/
theorem ingressBody_ok {s t : State} (h : ingressBody s = .ok t) : ∃ a x n,
    (∀ y ys, s.inputs.rxIn = y :: ys → a = y) ∧
    (isSentinel a = false → s.queue.count ≠ s.params.capacity ∧ s.queue.wr < s.params.capacity) ∧
    t = { s with
      queue := if isSentinel a then s.queue else s.queue.inserted s.params.capacity (receivedByte a)
      work := { s.work with rxr := x }
      inputs := { s.inputs with rxIn := s.inputs.rxIn.tail }
      trace := s.trace ++ [.receiveByte a]
      draws := n } := by
  obtain ⟨a, n, ha, hr⟩ := receiveByte_spec s
  unfold ingressBody at h
  rw [hr] at h
  simp only at h
  split at h
  · rename_i hs
    simp only [Except.ok.injEq] at h
    exact ⟨a, _, _, ha, by simp [hs], by rw [← h, hs]; rfl⟩
  · rename_i hs
    obtain ⟨b, hb, rfl⟩ := map_ok.mp h
    obtain ⟨hc, hw, rfl⟩ := insertByte_ok hb
    exact ⟨a, _, _, ha, fun _ => ⟨hc, hw⟩, by simp only [hs]; rfl⟩

/-- INGRESS that completes: skipped, or its body (R143, R145). -/
theorem execIngress_next {s t : State} (h : execIngress s = .next t) : s.phase = .ingress ∧
    ((s.queue.count = s.params.capacity ∧ t = { s with phase := .egress, result := none }) ∨
     (s.queue.count ≠ s.params.capacity ∧
      ∃ u, ingressBody s = .ok u ∧ t = { u with phase := .egress, result := none })) := by
  unfold execIngress at h
  split at h
  · rename_i hp
    refine ⟨hp, ?_⟩
    split at h
    · rename_i hf
      simp only [Host.Outcome.next.injEq] at h
      refine .inl ⟨by simpa using hf, h.symm.trans ?_⟩
      simp [State.endPhase, State.withPhase, State.returns, hp, Phase.next]
    · rename_i hf
      obtain ⟨u, hu, rfl⟩ := map_ok.mp (complete_next.mp h)
      refine .inr ⟨by simpa using hf, u, hu, ?_⟩
      obtain ⟨a, x, n, -, -, rfl⟩ := ingressBody_ok hu
      simp [State.endPhase, State.withPhase, State.returns, hp, Phase.next]
  · simp [refuse] at h

/-- EGRESS that completes: its body (R147). -/
theorem execEgress_next {s t : State} (h : execEgress s = .next t) : s.phase = .egress ∧
    ∃ u, egressBody s = .ok u ∧ t = (u.withPhase u.phase.next).returns none := by
  unfold execEgress at h
  split at h
  · rename_i hp
    obtain ⟨u, hu, rfl⟩ := map_ok.mp (complete_next.mp h)
    exact ⟨hp, u, hu, rfl⟩
  · simp [refuse] at h

/-- Everything one pass of EGRESS's loop can do when it answers (R147, R150). -/
theorem sendOne_ok {s t : State} {go : Bool} (h : sendOne s = .ok (go, t)) : ∃ v st w n,
    (∀ u, s.queue.storage.read s.queue.rd = some u → v = u) ∧ go = isSent st ∧
    (∀ y ys, s.inputs.sendIn = y :: ys → st = y) ∧ (go = true → s.queue.count ≠ 0) ∧
    w.rxr = s.work.rxr ∧
    t = { s with
      queue := if isSent st then s.queue.removed s.params.capacity else s.queue
      work := w
      inputs := { s.inputs with sendIn := s.inputs.sendIn.tail }
      trace := s.trace ++ [.sendByte v st]
      draws := n } := by
  unfold sendOne peekByte at h
  split at h
  · simp at h
  · rename_i b s1 hs1
    have hs1' : ∃ m, s1 = { s with draws := m } ∧ ∀ u, s.queue.storage.read s.queue.rd = some u → b = u := by
      obtain ⟨-, ⟨hv, rfl⟩ | ⟨hv, -, rfl⟩⟩ := memRead_ok hs1
      · exact ⟨s1.draws, rfl, by simp [hv]⟩
      · exact ⟨s.draws + 1, rfl, by simp [hv]⟩
    obtain ⟨m, hm, hb⟩ := hs1'
    obtain ⟨st, n, hst, hsend⟩ := sendByte_spec (s1.withWork { s1.work with head := b }) b
    simp only [hsend] at h
    have hst' : ∀ y ys, s.inputs.sendIn = y :: ys → st = y := by
      subst hm
      exact hst
    split at h
    · rename_i hsent
      split at h
      · simp at h
      · rename_i r s5 hrem
        simp only [Except.ok.injEq, Prod.mk.injEq] at h
        obtain ⟨rfl, rfl⟩ := h
        obtain ⟨hc, s6, hs6, rfl⟩ := removeByte_ok hrem
        subst hm
        obtain ⟨-, ⟨-, rfl⟩ | ⟨-, -, rfl⟩⟩ := memRead_ok hs6
        · exact ⟨b, st, { s.work with head := b, status := st, sent := s.work.sent + 1 }, n, hb, hsent.symm, hst',
            fun _ => hc, rfl, by rw [if_pos hsent]; rfl⟩
        · exact ⟨b, st, { s.work with head := b, status := st, sent := s.work.sent + 1 }, n + 1, hb, hsent.symm, hst',
            fun _ => hc, rfl, by rw [if_pos hsent]; rfl⟩
    · rename_i hsent
      simp only [Except.ok.injEq, Prod.mk.injEq] at h
      obtain ⟨rfl, rfl⟩ := h
      subst hm
      exact ⟨b, st, { s.work with head := b, status := st }, n, hb, by simpa using hsent, hst', by simp, rfl,
        by rw [if_neg hsent]; rfl⟩

/-- One pass of EGRESS's loop answers on a non-empty queue that meets its invariants (R147). -/
theorem sendOne_answers {s : State} (h : QueueInv s) (hc : s.queue.count ≠ 0) :
    ∃ go t, sendOne s = .ok (go, t) := by
  obtain ⟨v, hv⟩ := h.head hc
  unfold sendOne peekByte
  rw [memRead_written h.rdInStore hv]
  obtain ⟨st, n, -, hsend⟩ := sendByte_spec (s.withWork { s.work with head := v }) v
  simp only [hsend]
  split
  · rw [removeByte_next (v := v) (by exact hc) (by exact h.rdInStore) (by exact hv)]
    exact ⟨_, _, rfl⟩
  · exact ⟨_, _, rfl⟩

/-- A queue that meets its invariants holds bytes only (R27). -/
theorem content_bytes {s : State} (h : QueueInv s) : ∃ bytes : List Byte, s.content = bytes.map some := by
  have hall : ∀ c ∈ s.content, ∃ v, c = some v := by
    intro c hc
    obtain ⟨k, hk, rfl⟩ := List.mem_map.mp hc
    exact Option.isSome_iff_exists.mp (h.contentWritten k (List.mem_range.mp hk))
  generalize s.content = l at hall
  induction l with
  | nil => exact ⟨[], rfl⟩
  | cons c l ih =>
    obtain ⟨v, rfl⟩ := hall c (by simp)
    obtain ⟨bs, hbs⟩ := ih (fun d hd => hall d (by simp [hd]))
    exact ⟨v :: bs, by simp [hbs]⟩

/-- Everything EGRESS's loop does on a queue that meets its invariants, with no more passes than queued bytes: the bytes
of the content are offered in order until a send fails, and exactly the bytes sent are removed (R147 to R151). -/
theorem sendLoop_spec (n : Nat) {s : State} (h : QueueInv s) (hn : n ≤ s.queue.count) {bytes : List Byte}
    (hb : s.content = bytes.map some) : ∃ (t : State) (sts : List Status),
    sendLoop n s = .ok t ∧
    (∀ k < sts.length, k < s.inputs.sendIn.length → sts[k]? = s.inputs.sendIn[k]?) ∧
    sts.length ≤ n ∧ (∀ st ∈ sts.dropLast, isSent st = true) ∧
    (sts.length < n → ∃ st, sts.getLast? = some st ∧ isSent st = false) ∧
    t.work.rxr = s.work.rxr ∧ QueueInv t ∧
    t = { s with
      queue := { s.queue with
        rd := (s.queue.rd + sts.countP isSent) % s.params.capacity
        count := s.queue.count - sts.countP isSent }
      work := t.work
      inputs := { s.inputs with sendIn := s.inputs.sendIn.drop sts.length }
      trace := s.trace ++ List.zipWith Event.sendByte bytes sts
      draws := t.draws } ∧
    t.content = s.content.drop (sts.countP isSent) := by
  induction n generalizing s bytes with
  | zero =>
    refine ⟨s, [], rfl, by simp, by simp, by simp, by simp, rfl, h, ?_, by simp⟩
    simp [Nat.mod_eq_of_lt h.rdInStore]
  | succ n ih =>
    have hc : s.queue.count ≠ 0 := by omega
    obtain ⟨go, u, hu⟩ := sendOne_answers h hc
    obtain ⟨v, st, w, m, hv, hgo, hst, -, hw, hueq⟩ := sendOne_ok hu
    obtain ⟨b, hbv⟩ := h.head hc
    obtain rfl := hv b hbv
    have hhead := content_removed hc
    rw [Nat.mod_eq_of_lt h.rdInStore, hbv, hb] at hhead
    obtain ⟨bs, rfl⟩ : ∃ bs, bytes = v :: bs := by
      cases bytes with
      | nil => simp at hhead
      | cons x bs =>
        simp only [List.map_cons, List.cons.injEq, Option.some.injEq] at hhead
        exact ⟨bs, by rw [hhead.1]⟩
    simp only [List.map_cons, List.cons.injEq, true_and] at hhead
    cases hs : isSent st with
    | false =>
      simp only [hgo, hs] at hu
      simp only [hs, Bool.false_eq_true, if_false] at hueq
      refine ⟨u, [st], by simp only [sendLoop, hu], ?_, by simp, by simp, by simp [hs], by rw [hueq]; exact hw,
        by rw [hueq]; exact h, ?_, ?_⟩
      · intro k hk hk'
        have hk0 : k = 0 := by simpa using hk
        subst hk0
        cases hi : s.inputs.sendIn with
        | nil => simp [hi] at hk'
        | cons y ys => simp [hst y ys hi]
      · simp [hueq, hs, Nat.mod_eq_of_lt h.rdInStore, List.drop_one]
      · simp [hueq, hs, State.content]
    | true =>
      simp only [hgo, hs] at hu
      simp only [hs, if_true] at hueq
      obtain ⟨t, sts, ht, hans, hlen, hok, hfail, hwt, hinv, htq, hcont⟩ :=
        ih (s := u) (by rw [hueq]; exact h.removed hc) (by simp only [hueq, Queue.removed]; omega) (bytes := bs)
          (by rw [hueq]; exact hhead.symm)
      simp only [hueq] at hans hwt htq hcont
      refine ⟨t, st :: sts, by simp only [sendLoop, hu]; exact ht, ?_, by simpa using hlen, ?_, ?_,
        hwt.trans hw, hinv, ?_, ?_⟩
      · intro k hk hk'
        cases hi : s.inputs.sendIn with
        | nil => simp [hi] at hk'
        | cons y ys =>
          cases k with
          | zero => simp [hst y ys hi]
          | succ k =>
            simp only [hi, List.length_cons, List.tail_cons, Nat.add_lt_add_iff_right] at hk hk' hans
            simpa using hans k hk hk'
      · intro x hx
        cases sts with
        | nil => simp at hx
        | cons y ys =>
          simp only [List.dropLast_cons_cons, List.mem_cons] at hx
          obtain rfl | hx := hx
          · exact hs
          · exact hok x hx
      · intro hl
        obtain ⟨x, hx, hx'⟩ := hfail (by simpa using hl)
        refine ⟨x, ?_, hx'⟩
        cases sts with
        | nil => simp at hx
        | cons y ys => simpa [List.getLast?_cons_cons] using hx
      · rw [htq]
        simp only [List.countP_cons, hs, if_true, Queue.removed, List.length_cons, List.zipWith_cons_cons,
          List.append_assoc, List.singleton_append, List.drop_tail, advanceCursor_add, Nat.sub_sub,
          Nat.add_comm 1 (List.countP isSent sts)]
      · rw [hcont]
        simp only [List.countP_cons, hs, if_true, hb, List.map_cons, List.drop_succ_cons]
        rw [hhead]
        rfl

/-- EGRESS's body as its probe and then its loop (R147, R149, R152). -/
theorem egressBody_spec (s : State) : ∃ ready w n, w.rxr = s.work.rxr ∧
    (∀ x xs, s.inputs.readyIn = x :: xs → ready = x) ∧
    ∀ u : State, u = { s with
      work := w
      inputs := { s.inputs with readyIn := s.inputs.readyIn.tail }
      trace := s.trace ++ [.isSendReady ready]
      draws := n } →
    egressBody s = if ready then
        (sendLoop (min s.queue.count (s.params.chunkLimit - 1)) u).map State.retireEgress
      else .ok u.retireEgress := by
  obtain ⟨r, n, hr, hrs⟩ := isSendReady_spec (s.withWork { s.work with queued := s.queue.count })
  cases r with
  | true =>
    refine ⟨true, { s.work with
      queued := s.queue.count
      ready := true
      quota := min s.queue.count (s.params.chunkLimit - 1)
      sent := 0 }, n, rfl, hr, ?_⟩
    rintro u rfl
    simp only [egressBody, hrs, if_true]
    rfl
  | false =>
    refine ⟨false, { s.work with queued := s.queue.count, ready := false }, n, rfl, hr, ?_⟩
    rintro u rfl
    simp only [egressBody, hrs, Bool.false_eq_true, if_false]
    rfl

/-- What EGRESS's loop leaves alone, on any queue (R147). -/
theorem sendLoop_frame {n : Nat} {s t : State} (h : sendLoop n s = .ok t) : ∃ q w x m new,
    t = { s with
      queue := q
      work := w
      inputs := { s.inputs with sendIn := x }
      trace := s.trace ++ new
      draws := m } ∧
    q.storage = s.queue.storage ∧ q.wr = s.queue.wr ∧ w.rxr = s.work.rxr := by
  induction n generalizing s with
  | zero =>
    simp only [sendLoop, Except.ok.injEq] at h
    subst h
    exact ⟨s.queue, s.work, s.inputs.sendIn, s.draws, [], by rw [List.append_nil], rfl, rfl, rfl⟩
  | succ n ih =>
    unfold sendLoop at h
    split at h
    · simp at h
    · rename_i u hu
      obtain ⟨v, st, w, m, -, -, -, -, hw, hueq⟩ := sendOne_ok hu
      obtain ⟨q, w', x, m', new, rfl, h1, h2, h3⟩ := ih h
      subst hueq
      refine ⟨q, w', x, m', .sendByte v st :: new, by rw [← List.append_cons], ?_, ?_, h3.trans hw⟩
      · rw [h1]
        dsimp only
        split <;> rfl
      · rw [h2]
        dsimp only
        split <;> rfl
    · rename_i u hu
      obtain ⟨v, st, w, m, -, -, -, -, hw, hueq⟩ := sendOne_ok hu
      simp only [Except.ok.injEq] at h
      subst h hueq
      refine ⟨_, w, _, m, [.sendByte v st], rfl, ?_, ?_, hw⟩
      · split <;> rfl
      · split <;> rfl

/-- What EGRESS's loop does to `count`, on any queue: it falls by the bytes sent, and no byte is received (R147, R151). -/
theorem sendLoop_count {n : Nat} {s t : State} (h : sendLoop n s = .ok t) : ∃ new,
    t.trace = s.trace ++ new ∧ receivedBytes new = [] ∧ s.queue.count = t.queue.count + (sentBytes new).length := by
  induction n generalizing s with
  | zero =>
    simp only [sendLoop, Except.ok.injEq] at h
    subst h
    exact ⟨[], by simp, rfl, rfl⟩
  | succ n ih =>
    unfold sendLoop at h
    split at h
    · simp at h
    · rename_i u hu
      obtain ⟨v, st, w, m, -, hgo, -, hc, -, rfl⟩ := sendOne_ok hu
      obtain ⟨new, ht, hr, hn⟩ := ih h
      have hc := hc rfl
      refine ⟨.sendByte v st :: new, by rw [ht, ← List.append_cons], hr, ?_⟩
      simp only [← hgo, if_true, Queue.removed] at hn
      simp only [sentBytes, List.filterMap_cons, Event.sent, ← hgo, if_true, List.length_cons]
      simp only [sentBytes] at hn
      omega
    · rename_i u hu
      obtain ⟨v, st, w, m, -, hgo, -, -, -, rfl⟩ := sendOne_ok hu
      simp only [Except.ok.injEq] at h
      subst h
      exact ⟨[.sendByte v st], rfl, rfl, by simp [sentBytes, Event.sent, ← hgo]⟩

/-- What EGRESS leaves alone, on any queue (R147). -/
theorem execEgress_frame {s t : State} (h : execEgress s = .next t) : s.phase = .egress ∧ ∃ q w x y m new,
    t = { s with
      queue := q
      phase := .housekeep
      work := w
      inputs := { s.inputs with readyIn := x, sendIn := y }
      trace := s.trace ++ new
      result := none
      draws := m } ∧
    q.storage = s.queue.storage ∧ q.wr = s.queue.wr ∧ w.rxr = s.work.rxr := by
  obtain ⟨hp, u, hu, rfl⟩ := execEgress_next h
  refine ⟨hp, ?_⟩
  obtain ⟨r, w, n, hw, -, hbody⟩ := egressBody_spec s
  rw [hbody _ rfl] at hu
  split at hu
  · obtain ⟨v, hv, rfl⟩ := map_ok.mp hu
    obtain ⟨q, w', x, m, new, rfl, h1, h2, h3⟩ := sendLoop_frame hv
    refine ⟨q, deadEgress w' m, s.inputs.readyIn.tail, x, m + 1, [.isSendReady r] ++ new, ?_, h1, h2, h3.trans hw⟩
    rw [← List.append_assoc]
    simp only [State.retireEgress, State.withWork, State.tick, State.withPhase, State.returns, hp, Phase.next]
  · simp only [Except.ok.injEq] at hu
    subst hu
    refine ⟨s.queue, deadEgress w n, s.inputs.readyIn.tail, s.inputs.sendIn, n + 1, [.isSendReady r], ?_, rfl, rfl, hw⟩
    simp only [State.retireEgress, State.withWork, State.tick, State.withPhase, State.returns, hp, Phase.next]

/-- What no operation changes (R39, R40, R42, R18): the parameters, the faults, the refusal, a true `inited`, the trace so
far, an Idle handler, the commands waiting, the notifications and the turns. -/
theorem exec_frame {i : Instr} {s t : State} (h : exec i s = .next t) :
    t.params = s.params ∧ t.book.faults = s.book.faults ∧ t.book.refused = s.book.refused ∧
    (s.book.inited = true → t.book.inited = true) ∧ (∃ new, t.trace = s.trace ++ new) ∧
    (s.line.hstate = .idle → t.line.hstate = .idle) ∧ t.inputs.program = s.inputs.program ∧
    t.inputs.notices = s.inputs.notices ∧ t.inputs.turns = s.inputs.turns ∧ t.inputs.le = s.inputs.le := by
  have hsame : ∃ new, s.trace = s.trace ++ new := ⟨[], by simp⟩
  cases i with
  | qinit =>
    obtain ⟨-, rfl⟩ := execQinit_next h
    exact ⟨rfl, rfl, rfl, fun _ => rfl, hsame, id, rfl, rfl, rfl, rfl⟩
  | qisfull =>
    simp only [exec, execQisfull, Host.Outcome.next.injEq] at h
    subst h
    exact ⟨rfl, rfl, rfl, id, hsame, id, rfl, rfl, rfl, rfl⟩
  | qisempty =>
    simp only [exec, execQisempty, Host.Outcome.next.injEq] at h
    subst h
    exact ⟨rfl, rfl, rfl, id, hsame, id, rfl, rfl, rfl, rfl⟩
  | qcount =>
    simp only [exec, execQcount, Host.Outcome.next.injEq] at h
    subst h
    exact ⟨rfl, rfl, rfl, id, hsame, id, rfl, rfl, rfl, rfl⟩
  | qinsert v =>
    obtain ⟨-, -, rfl⟩ := execQinsert_next h
    exact ⟨rfl, rfl, rfl, id, hsame, id, rfl, rfl, rfl, rfl⟩
  | qremove =>
    obtain ⟨-, -, v, n, -, rfl⟩ := execQremove_next h
    exact ⟨rfl, rfl, rfl, id, hsame, id, rfl, rfl, rfl, rfl⟩
  | qpeek =>
    obtain ⟨-, v, n, -, rfl⟩ := execQpeek_next h
    exact ⟨rfl, rfl, rfl, id, hsame, id, rfl, rfl, rfl, rfl⟩
  | ingress =>
    obtain ⟨-, ⟨-, rfl⟩ | ⟨-, u, hu, rfl⟩⟩ := execIngress_next h
    · exact ⟨rfl, rfl, rfl, id, hsame, id, rfl, rfl, rfl, rfl⟩
    · obtain ⟨a, x, n, -, -, rfl⟩ := ingressBody_ok hu
      exact ⟨rfl, rfl, rfl, id, ⟨_, rfl⟩, id, rfl, rfl, rfl, rfl⟩
  | egress =>
    obtain ⟨-, q, w, x, y, m, new, rfl, -⟩ := execEgress_frame h
    exact ⟨rfl, rfl, rfl, id, ⟨_, rfl⟩, id, rfl, rfl, rfl, rfl⟩
  | housekeep =>
    obtain ⟨-, rfl⟩ := execHousekeep_next h
    exact ⟨rfl, rfl, rfl, id, ⟨_, rfl⟩, id, rfl, rfl, rfl, rfl⟩
  | setline =>
    obtain ⟨d, n, -, hs⟩ := execSetline_eq s
    simp only [exec, hs, Host.Outcome.next.injEq] at h
    subst h
    exact ⟨rfl, rfl, rfl, id, ⟨_, rfl⟩, fun _ => rfl, rfl, rfl, rfl, rfl⟩

end Sys2Proof.Machine
end

