-- ==== Sys2Proof/Laws/PerInstr.lean ====
section
/-!
SUPPORT. The statements made per instruction: family CommandWord, an operation's word selects its own row of the table
and no other (spec/30_encoding.md R82, R83).
-/
namespace Sys2Proof.Laws.CommandWord

open Sys2Proof

/-- The word of `i` selects one row of R82, the one with `i`'s mnemonic. -/
def Statement (i : Instr) : Prop := (rowsOf (encode i)).map OpRow.mnemonic = [i.mnemonic]

theorem qinit : Statement .qinit := by
  unfold Statement
  decide
theorem qisfull : Statement .qisfull := by
  unfold Statement
  decide
theorem qisempty : Statement .qisempty := by
  unfold Statement
  decide
theorem qcount : Statement .qcount := by
  unfold Statement
  decide
theorem qinsert (v : Byte) : Statement (.qinsert v) := by
  unfold Statement
  revert v
  decide
theorem qremove : Statement .qremove := by
  unfold Statement
  decide
theorem qpeek : Statement .qpeek := by
  unfold Statement
  decide
theorem ingress : Statement .ingress := by
  unfold Statement
  decide
theorem egress : Statement .egress := by
  unfold Statement
  decide
theorem housekeep : Statement .housekeep := by
  unfold Statement
  decide
theorem setline : Statement .setline := by
  unfold Statement
  decide

end Sys2Proof.Laws.CommandWord
end

