-- ==== Sys2Proof/Tests/Slice0.lean ====
section
/-!
SUPPORT. The model's own tests. Expected values are those of spec/95_test_vectors.md (V1 to V43, P1 to P5) and of the
encoding tables of spec/30_encoding.md; then a concrete state and operands for the hypotheses of every statement.
-/
namespace Sys2Proof.Tests

open Sys2Proof Sys2Proof.Machine

/-! ## Helpers -/

/-- The store with these cells, `none` an unwritten one, from index `k` on. -/
def cellsFrom : Nat → List (Option Byte) → Memory
  | _, [] => []
  | k, some v :: cs => (k, v) :: cellsFrom (k + 1) cs
  | k, none :: cs => cellsFrom (k + 1) cs

/-- A state with `N = n`, `CHUNK_LIMIT = chunk`, the given queue, everything else as after reset. -/
def st (n chunk : Nat) (cells : List (Option Byte)) (rd wr count : Nat) : State :=
  { State.resetWith { Config.vectorParams with capacity := n, chunkLimit := chunk } with
    queue := ⟨cellsFrom 0 cells, rd, wr, count⟩ }

/-- The state with this `phase`. -/
def atPhase (p : Phase) (s : State) : State := { s with phase := p }

/-- The state with this `LE` record on the port. -/
def withLe (le : LineEncoding) (s : State) : State := { s with inputs := { s.inputs with le := le } }

/-- The state with these answers waiting. -/
def answering (rx : List Half) (ready : List Bool) (sends : List Status) (s : State) : State :=
  { s with inputs := { s.inputs with rxIn := rx, readyIn := ready, sendIn := sends } }

/-- What a test reads of an outcome: the next state's view, or the fault, or the refusal. -/
inductive Seen (α : Type) where
  | next (a : α)
  | fault (f : Fault)
  | refused (r : Refusal)
  deriving DecidableEq, Repr

/-- An outcome seen through a view of its next state. -/
def see {α : Type} (view : State → α) : Host.Outcome State Fault Refusal → Seen α
  | .next t => .next (view t)
  | .fault f => .fault f
  | .refused r => .refused r

/-- Five bytes in a store of eight cells, the start state of V20 to V24. -/
def five (chunk : Nat) : State :=
  atPhase .egress (st 8 chunk [some 0x41, some 0x42, some 0x43, some 0x44, some 0x45, none, none, none] 0 5 5)

/-- The full queue of V8 and V9. -/
def full4 : State := st 4 3 [some 0x41, some 0x42, some 0x43, some 0x44] 0 0 4

/-- Two bytes queued across the end of the store (V10). -/
def wrapped4 : State := st 4 3 [some 0x45, some 0x42, some 0x43, some 0x44] 3 1 2

/-- An empty queue with every cell unwritten (V2). -/
def fresh4 : State := st 4 3 [] 0 0 0

/-! ## Words written out from R81 and R82: fam, fn, imm8 -/

theorem test_decode_qinit : decode 0b0000_0000_00000000 = .ok .qinit := by decide
theorem test_decode_qisfull : decode 0b0000_0001_00000000 = .ok .qisfull := by decide
theorem test_decode_qisempty : decode 0b0000_0010_00000000 = .ok .qisempty := by decide
theorem test_decode_qcount : decode 0b0000_0011_00000000 = .ok .qcount := by decide
theorem test_decode_qinsert : decode 0b0000_0100_11111111 = .ok (.qinsert 0xFF) := by decide
theorem test_decode_qremove : decode 0b0000_0101_00000000 = .ok .qremove := by decide
theorem test_decode_qpeek : decode 0b0000_0110_00000000 = .ok .qpeek := by decide
theorem test_decode_ingress : decode 0b0001_0000_00000000 = .ok .ingress := by decide
theorem test_decode_egress : decode 0b0001_0001_00000000 = .ok .egress := by decide
theorem test_decode_housekeep : decode 0b0001_0010_00000000 = .ok .housekeep := by decide
theorem test_decode_setline : decode 0b0010_0000_00000000 = .ok .setline := by decide

/-- V19's reserved words. -/
theorem test_decode_reserved : [(0x0700 : Half), 0x0101, 0x1300, 0x2100, 0x3000, 0xFFFF].map decode =
    [.error .function, .error .operand, .error .function, .error .function, .error .family, .error .family] := by
  decide

theorem test_table_word : decodeTableWord 16 0x0445 = some (.qinsert 0x45) := by decide

theorem test_assembly : (Instr.qinsert 0x41).assembly = "QINSERT 0x41" := by decide

/-! ## Well-formed parameters: one ill-formed set per check -/

theorem test_default_params_wf : Config.vectorParams.wf = true := by decide
theorem test_capacity_zero_refused : Params.wf { Config.vectorParams with capacity := 0 } = false := by decide
theorem test_chunk_zero_refused : Params.wf { Config.vectorParams with chunkLimit := 0 } = false := by decide
theorem test_odd_mask_refused : Params.wf { Config.vectorParams with mParOdd := 0x20 } = false := by decide
theorem test_even_mask_refused : Params.wf { Config.vectorParams with mParEven := 0x30 } = false := by decide
theorem test_stop_mask_refused : Params.wf { Config.vectorParams with mStop2 := 0x00 } = false := by decide
theorem test_data6_mask_refused : Params.wf { Config.vectorParams with mData6 := 0x03 } = false := by decide
theorem test_data7_mask_refused : Params.wf { Config.vectorParams with mData7 := 0x00 } = false := by decide
theorem test_same_data_masks_refused : Params.wf { Config.vectorParams with mData7 := 0x02 } = false := by decide
theorem test_stop_in_parity_refused : Params.wf { Config.vectorParams with mStop2 := 0x10 } = false := by decide
theorem test_data_in_parity_refused : Params.wf { Config.vectorParams with mData6 := 0x20 } = false := by decide
theorem test_data_in_stop_refused : Params.wf { Config.vectorParams with mData7 := 0x08 } = false := by decide
theorem test_rxie_mask_refused : Params.wf { Config.vectorParams with eRxie := 0x00 } = false := by decide
theorem test_txen_mask_refused : Params.wf { Config.vectorParams with eTxen := 0x0C } = false := by decide
theorem test_rxen_mask_refused : Params.wf { Config.vectorParams with eRxen := 0x00 } = false := by decide
theorem test_rxie_is_txen_refused : Params.wf { Config.vectorParams with eRxie := 0x08 } = false := by decide
theorem test_rxie_is_rxen_refused : Params.wf { Config.vectorParams with eRxie := 0x10 } = false := by decide
theorem test_txen_is_rxen_refused : Params.wf { Config.vectorParams with eTxen := 0x10 } = false := by decide

/-! ## Operations -/

/-- V1. -/
theorem test_qinit : see (fun t => (t.queue, t.book.inited)) (exec .qinit (State.preInit Config.vectorParams)) =
    .next (⟨[], 0, 0, 0⟩, true) := by decide

/-- V18. -/
theorem test_qinit_twice : see State.queue (exec .qinit full4) = .refused .reinitRefused := by decide

/-- P1 step 6. -/
theorem test_qisfull : see State.result (exec .qisfull full4) = .next (some (.bit true)) := by decide

/-- V2. -/
theorem test_qisempty : see State.result (exec .qisempty fresh4) = .next (some (.bit true)) := by decide

/-- S2's instance, P1 step 8: four inserts and one remove. -/
theorem test_qcount : see State.result
    (exec .qcount (st 4 3 [some 0x41, some 0x42, some 0x43, some 0x44] 1 0 3)) = .next (some (.count 3)) := by decide

/-- V7: the write cursor wraps. -/
theorem test_qinsert_wraps : see State.queue
    (exec (.qinsert 0x44) (st 4 3 [some 0x41, some 0x42, some 0x43] 0 3 3)) = .next full4.queue := by decide

/-- V8. -/
theorem test_qinsert_full : see State.queue (exec (.qinsert 0x45) full4) = .fault (.queueOverflow 0x45 0 0 4) := by
  decide

/-- V10: the read cursor wraps and the cell keeps its byte. -/
theorem test_qremove_wraps : see (fun t => (t.result, t.queue)) (exec .qremove wrapped4) =
    .next (some (.byte 0x44), ⟨wrapped4.queue.storage, 0, 1, 1⟩) := by decide

/-- V12. -/
theorem test_qremove_empty : see State.queue
    (exec .qremove (st 4 3 [some 0x45, some 0x42, some 0x43, some 0x44] 1 1 0)) = .fault (.queueUnderflow 1 1) := by
  decide

/-- V14: a stale byte on an empty queue. -/
theorem test_qpeek_stale : see State.result
    (exec .qpeek (st 4 3 [some 0x45, some 0x42, some 0x43, some 0x44] 1 1 0)) = .next (some (.byte 0x42)) := by decide

/-- V15: an unwritten cell gives some byte and no fault. -/
theorem test_qpeek_unwritten : see (fun t => (t.queue, t.result.isSome)) (exec .qpeek fresh4) =
    .next (fresh4.queue, true) := by decide

/-- V29b: only the low eight bits of an answer are inserted. -/
theorem test_ingress_low_byte : see (fun t => (t.queue, t.phase, t.trace))
    (exec .ingress (answering [0x01A5] [] [] (st 4 3 [some 0x41] 0 1 1))) =
    .next (⟨[(0, 0x41), (1, 0xA5)], 0, 2, 2⟩, .egress, [.receiveByte 0x01A5]) := by decide

/-- V29: the sentinel 0x8000, and with V28's full queue no call. -/
theorem test_ingress_sentinel_and_full :
    see (fun t => (t.queue, t.trace)) (exec .ingress (answering [0x8000] [] [] (st 4 3 [some 0x41] 0 1 1))) =
      .next (⟨[(0, 0x41)], 0, 1, 1⟩, [.receiveByte 0x8000]) ∧
    see (fun t => (t.queue, t.trace, t.inputs.rxIn)) (exec .ingress (answering [0x0045] [] [] full4)) =
      .next (full4.queue, [], [0x0045]) := by decide

/-- V20: the quota is three. -/
theorem test_egress_quota : see (fun t => (t.queue.rd, t.queue.count, t.trace))
    (exec .egress (answering [] [true] [0, 0, 0, 0] (five 4))) =
    .next (3, 2, [.isSendReady true, .sendByte 0x41 0, .sendByte 0x42 0, .sendByte 0x43 0]) := by decide

/-- V21: the second send is not ready; its byte stays. -/
theorem test_egress_failed_send : see (fun t => (t.queue.rd, t.content, t.trace))
    (exec .egress (answering [] [true] [0, 1] (five 4))) =
    .next (1, [some 0x42, some 0x43, some 0x44, some 0x45],
      [.isSendReady true, .sendByte 0x41 0, .sendByte 0x42 1]) := by decide

/-- V29c. -/
theorem test_housekeep : see (fun t => (t.phase, t.trace)) (exec .housekeep (atPhase .housekeep full4)) =
    .next (.ingress, [.periodicTask]) := by decide

/-- V29d. -/
theorem test_out_of_phase : [Instr.egress, .housekeep].map (fun i => see State.phase (exec i full4)) =
    [.refused .outOfPhase, .refused .outOfPhase] := by decide

/-- V30. -/
theorem test_setline : see (fun t => (t.line, t.trace)) (exec .setline (withLe ⟨9600, 1, 0, 8⟩ fresh4)) =
    .next (⟨0x36, 0x00CF, 0x98, .idle⟩, [.regWrite (.enable 0x00), .regWrite (.divisor 0x00CF),
      .regWrite (.mode 0x36), .regWrite (.enable 0x98)]) := by decide

/-- V43: masks that are not the defaults. -/
theorem test_setline_masks : see State.line (exec .setline (withLe ⟨9600, 1, 0, 8⟩ (State.resetWith
      { Config.vectorParams with mParOdd := 0x03, mParEven := 0x02, mStop2 := 0x04, mData6 := 0x10, mData7 := 0x20,
                                 eRxie := 0x01, eTxen := 0x02, eRxen := 0x04 }))) =
    .next ⟨0x33, 207, 0x07, .idle⟩ := by decide

/-- V32, V33, V35, V36: the mode values. -/
theorem test_modes : [(⟨19200, 2, 2, 7⟩ : LineEncoding), ⟨2400, 2, 0, 6⟩, ⟨9600, 0, 2, 5⟩, ⟨9600, 3, 1, 9⟩].map
    (modeOf Config.vectorParams) = [0x2C, 0x22, 0x08, 0x00] := by decide

/-- V37 to V41: 300, 2000000, 10, 0 and 4294967295 baud. -/
theorem test_divisors : [300, 2000000, 10, 0, 4294967295].map (usartDivisor 16000000 true) =
    [some 6666, some 0, some 199999, none, none] := by decide

/-! ## Steps -/

/-- From reset, the placed word is what runs. -/
theorem test_step_runs_word : see State.result (step (State.reset.withFetchWord 16 0x0300)) =
    .next (some (.count 0)) := by decide

/-- R231: QINIT's word is placed in the state before QINIT. -/
theorem test_step_places_init : see (fun t => t.book.inited) (step (State.reset.withFetchWord 16 0x0000)) =
    .next true := by decide

/-- R161: a relay phase's word is placed with the phase it needs. -/
theorem test_step_places_phase : see State.phase (step (State.reset.withFetchWord 16 0x1200)) = .next .ingress := by
  decide

/-- V19 as a step. -/
theorem test_step_reserved : see State.result (step (State.reset.withFetchWord 16 0xFFFF)) =
    .refused (.illegalOp 0xFFFF) := by decide

/-- From reset with nothing presented the loop runs INGRESS (R230); an answer below 0x8000 is a byte (P2, iteration 1). -/
theorem test_step_deployed : see (fun t => (t.phase, t.queue)) (step (answering [0x0041] [] [] State.reset)) =
    .next (.egress, ⟨[(0, 0x41)], 0, 1, 1⟩) := by decide

/-- push and pop together (R209). -/
theorem test_step_pins : see State.queue
    (step { full4 with inputs := { full4.inputs with program := [.pins (some 0x45) true] } }) =
    .refused .concurrentQueueOp := by decide

/-! ## Witnesses: a state and operands that meet the hypotheses of each statement -/

theorem full4_queueInv : QueueInv full4 :=
  ⟨by decide, by decide, by decide, by decide, by decide, by decide, by decide⟩

theorem wrapped4_queueInv : QueueInv wrapped4 :=
  ⟨by decide, by decide, by decide, by decide, by decide, by decide, by decide⟩

theorem five_queueInv : QueueInv (five 4) :=
  ⟨by decide, by decide, by decide, by decide, by decide, by decide, by decide⟩

theorem fresh4_queueInv : QueueInv fresh4 :=
  ⟨by decide, by decide, by decide, by decide, by decide, by decide, by decide⟩

theorem reset_good : Good State.reset := ⟨rfl, rfl⟩

/-- `full4` with `c` presented. -/
def presenting (c : Command) : State := { full4 with inputs := { full4.inputs with program := [c] } }

theorem witness_DecodeInvertsEncode : (Instr.qinsert 0xFF).wellFormed = true ∧ decode 0x04FF = .ok (.qinsert 0xFF) := by
  decide

theorem witness_TableRowsDecideTheOperation : decode 0x2000 = .ok .setline := by decide

theorem witness_InsertOperandIsTheLowByte : decode 0x0480 = .ok (.qinsert 0x80) := by decide

theorem witness_ReservedWordIsRefused : Good (presenting (.word 0x0700 none)) ∧
    (presenting (.word 0x0700 none)).inputs.program = .word 0x0700 none :: [] ∧ ∃ r, decode 0x0700 = .error r :=
  ⟨⟨rfl, rfl⟩, rfl, .function, by decide⟩

theorem witness_StepRunsTheDecodedOperation : Good (presenting (.word 0x2000 (some ⟨9600, 1, 0, 8⟩))) ∧
    (presenting (.word 0x2000 (some ⟨9600, 1, 0, 8⟩))).inputs.program = .word 0x2000 (some ⟨9600, 1, 0, 8⟩) :: [] ∧
    decode 0x2000 = .ok .setline :=
  ⟨⟨rfl, rfl⟩, rfl, by decide⟩

theorem witness_PinsPushAndPop : ∀ c : Command, c ∈ [Command.pins (some 0x41) false, .pins none true, .pins none false,
    .pins (some 0x41) true] → Good (presenting c) ∧ (presenting c).inputs.program = c :: [] :=
  fun _ _ => ⟨⟨rfl, rfl⟩, rfl⟩

/-- `full4` with notifications waiting and turns listed. -/
def noticed (ns : List Notice) (ts : List Turn) : State :=
  { full4 with inputs := { full4.inputs with notices := ns, turns := ts } }

theorem witness_DeployedStepIsPhaseOrNotice : ∀ ns ts, Good (noticed ns ts) ∧ Deployed (noticed ns ts) ∧
    (noticed ns ts).inputs.notices = ns ∧ (noticed ns ts).inputs.turns = ts :=
  fun _ _ => ⟨⟨rfl, rfl⟩, rfl, rfl, rfl⟩

theorem witness_ResetMeetsTheInvariant : Config.vectorParams.wf = true ∧ 1 ≤ Config.vectorParams.capacity := by decide

theorem witness_InitRunsOnce : (State.preInit Config.vectorParams).book.inited = false ∧ full4.book.inited = true ∧
    1 ≤ (State.preInit Config.vectorParams).params.capacity := by decide

theorem witness_QueriesAnswerFromCount : 1 ≤ full4.params.capacity := by decide

/-- One free cell left, the write cursor on the last cell; and N = 1. -/
theorem witness_InsertStoresAtWriteCursor :
    (let s := st 4 3 [some 0x41, some 0x42, some 0x43] 0 3 3
     s.queue.count < s.params.capacity ∧ s.queue.wr < s.params.capacity) ∧
    (let s := st 1 3 [] 0 0 0
     s.queue.count < s.params.capacity ∧ s.queue.wr < s.params.capacity) := by decide

/-- The last byte, the read cursor on the last cell; and an unwritten head. -/
theorem witness_RemoveTakesTheHead :
    (let s := st 4 3 [some 0x41, some 0x42, some 0x43, some 0x44] 3 0 1
     s.queue.count ≠ 0 ∧ s.queue.count ≤ s.params.capacity ∧ s.queue.rd < s.params.capacity ∧
     s.queue.storage.read s.queue.rd = some 0x44) ∧
    (let s := st 4 3 [] 0 1 1
     s.queue.count ≠ 0 ∧ s.queue.count ≤ s.params.capacity ∧ s.queue.rd < s.params.capacity ∧
     s.queue.storage.read s.queue.rd = none) := by decide

theorem witness_PeekReadsWithoutRemoving : full4.queue.rd < full4.params.capacity ∧
    full4.queue.storage.read full4.queue.rd = some 0x41 ∧ fresh4.queue.rd < fresh4.params.capacity ∧
    fresh4.queue.storage.read fresh4.queue.rd = none := by decide

theorem witness_ContractViolationsFault : full4.queue.count = full4.params.capacity ∧ fresh4.queue.count = 0 := by decide

theorem witness_StorageWriteChangesOneCell : 3 < full4.params.capacity ∧ full4.queue.storage.wf = true ∧
    (full4.queue.storage.read 3).isSome = true ∧ see State.queue (exec .qpeek full4) = .next full4.queue := by decide

theorem witness_StorageReadHasNoEffect : 3 < full4.params.capacity ∧ full4.queue.storage.read 3 = some 0x44 ∧
    fresh4.queue.storage.read 3 = none ∧ full4.params.capacity ≤ 4 := by decide

theorem witness_QueueInvariantsAreKept : QueueInv full4 ∧ full4.queue.count = full4.params.capacity ∧
    QueueInv fresh4 ∧ fresh4.queue.count = 0 ∧
    see State.queue (exec .qremove wrapped4) = .next ⟨wrapped4.queue.storage, 0, 1, 1⟩ :=
  ⟨full4_queueInv, by decide, fresh4_queueInv, by decide, by decide⟩

theorem witness_QueueIsFirstInFirstOut : QueueInv wrapped4 ∧
    (∀ i ∈ [Instr.qinsert 0x50, .qremove, .qpeek, .qcount], i.isQueueOp = true ∧ i ≠ .qinit) ∧
    (execRemoved [Instr.qinsert 0x50, .qremove, .qpeek, .qcount] wrapped4).1 = [0x44] ∧
    see State.content (execRemoved [Instr.qinsert 0x50, .qremove, .qpeek, .qcount] wrapped4).2 =
      .next [some 0x45, some 0x50] :=
  ⟨wrapped4_queueInv, by decide, by decide, by decide⟩

theorem witness_QueueOperationsActOnTheContent : QueueInv wrapped4 ∧
    wrapped4.queue.count < wrapped4.params.capacity ∧ wrapped4.queue.count ≠ 0 :=
  ⟨wrapped4_queueInv, by decide, by decide⟩

theorem witness_CountIsInsertsLessRemoves : see State.queue (exec .qinit (State.preInit Config.vectorParams)) =
      .next State.reset.queue ∧
    see (fun t => (t.queue.count, (receivedBytes t.trace).length)) (execAll [.qinsert 1, .ingress, .qremove, .setline]
      (withLe ⟨9600, 1, 0, 8⟩ (answering [0x0041] [] [] State.reset))) = .next (1, 1) := by decide

theorem witness_CapacityIsExactlyN : 1 ≤ (State.preInit Config.vectorParams).params.capacity ∧
    see State.queue (exec .qinit (State.preInit Config.vectorParams)) = .next State.reset.queue ∧
    ([1, 2, 3, 4] : List Byte).length = (State.preInit Config.vectorParams).params.capacity := by decide

theorem witness_PhasesRunInOrderOnly : full4.phase ≠ .egress ∧
    see State.phase (exec (phaseInstr .housekeep) (atPhase .housekeep full4)) = .next .ingress ∧
    see State.phase (exec .qpeek full4) = .next .ingress := by decide

theorem witness_IngressSkipsWhenFull : full4.phase = .ingress ∧ full4.queue.count = full4.params.capacity := by decide

theorem witness_IngressTakesAtMostOneByte :
    let s := answering [0x00FF] [] [] (st 4 3 [some 0x41, some 0x42, some 0x43] 0 3 3)
    s.phase = .ingress ∧ s.queue.count < s.params.capacity ∧ s.queue.wr < s.params.capacity := by decide

theorem witness_EgressSendsUpToTheQuota : (five 4).phase = .egress ∧ QueueInv (five 4) := ⟨rfl, five_queueInv⟩

theorem witness_HousekeepCallsPeriodicTask : (atPhase .housekeep full4).phase = .housekeep := by decide

theorem witness_IterationBounds : QueueInv full4 ∧ full4.phase = .ingress := ⟨full4_queueInv, rfl⟩

theorem witness_ChunkLimitOneStalls : (five 1).phase = .egress ∧ (five 1).params.chunkLimit = 1 := by decide

theorem witness_ModeValueTellsTheEncoding :
    Config.vectorParams.wf = true ∧ modeOf Config.vectorParams ⟨9600, 2, 2, 8⟩ = modeOf Config.vectorParams ⟨300, 2, 2, 8⟩ := by
  decide

theorem witness_ModeBitsOutsideTheGroupsAreZero : (Config.vectorParams.mParOdd ||| Config.vectorParams.mParEven |||
    Config.vectorParams.mStop2 ||| Config.vectorParams.mData6 ||| Config.vectorParams.mData7).getLsbD 0 = false := by
  decide

theorem witness_SetlineWritesFourRegistersInOrder :
    divisorOf (withLe ⟨9600, 1, 0, 8⟩ fresh4).params.divisor true 9600 = some 207 := by decide

theorem witness_OddEightEncodingMapsAsStated :
    let s := withLe ⟨9600, 1, 0, 8⟩ fresh4
    s.inputs.le.parity = 1 ∧ s.inputs.le.stop = 0 ∧ s.inputs.le.databits = 8 ∧
      divisorOf s.params.divisor true s.inputs.le.baud.toNat = some 207 ∧
      (withLe ⟨9600, 1, 0, 8⟩ State.reset).params = Config.vectorParams := by decide

theorem full4_inv : Inv full4 := ⟨by decide, full4_queueInv, rfl⟩

theorem witness_StepKeepsTheInvariant : Inv full4 ∧ see State.phase (step full4) = .next .egress :=
  ⟨full4_inv, by decide⟩

theorem witness_DeployedCoreNeverStops : Inv full4 ∧ Good full4 ∧ Deployed full4 := ⟨full4_inv, ⟨rfl, rfl⟩, rfl⟩

/-- Five bytes received and one of them sent, four queued. -/
def relaying : State :=
  { full4 with trace := [.receiveByte 0x40, .receiveByte 0x41, .sendByte 0x40 1, .sendByte 0x40 0, .receiveByte 0xFFFF,
      .receiveByte 0x42, .receiveByte 0x43, .receiveByte 0x44] }

theorem witness_DeployedCoreConservesBytes : Inv relaying ∧ Deployed relaying ∧ Conserved relaying ∧
    see State.phase (step relaying) = .next .egress :=
  ⟨⟨by decide, full4_queueInv, rfl⟩, rfl, by unfold Conserved; decide, by decide⟩

theorem witness_StepsOnlyAddToTheRecord : see State.phase (step full4) = .next .egress := by decide

theorem witness_StopsAreFinal : ∀ t, step (presenting (.word 0x0700 none)) ≠ .next t := by
  intro t h
  have hs : see State.phase (step (presenting (.word 0x0700 none))) = .refused (.illegalOp 0x0700) := by decide
  rw [h] at hs
  simp [see] at hs

theorem witness_LineConfigAndRelayShareNothing : Instr.qpeek ≠ .setline ∧
    see State.phase (exec .qpeek full4) = .next .ingress ∧ see State.phase (exec .setline full4) = .next .ingress := by
  decide

theorem witness_SetlineCommutesWithTheRelay : Instr.ingress ≠ .setline ∧
    divisorOf (withLe ⟨9600, 1, 0, 8⟩ full4).params.divisor true 9600 = some 207 ∧
    see State.phase (execAll [.setline, .ingress] (withLe ⟨9600, 1, 0, 8⟩ full4)) = .next .egress := by decide

theorem witness_QueueWritersAreTheNamedOnes : see State.phase (exec .qpeek full4) = .next .ingress := by decide

theorem witness_ResetLeavesTheTableValues : 1 ≤ Config.vectorParams.capacity := by decide

theorem witness_ModeGroupsFollowTheMapping : (3 : Byte) ≠ 1 ∧ (3 : Byte) ≠ 2 ∧ (9 : Byte) ≠ 6 ∧ (9 : Byte) ≠ 7 ∧
    (9 : Byte) ≠ 8 := by decide

theorem witness_NotificationIsEventuallyHandled : Inv (noticed [.lifecycle .connect] []) ∧
    Good (noticed [.lifecycle .connect] []) ∧ Deployed (noticed [.lifecycle .connect] []) :=
  ⟨⟨by decide, full4_queueInv, rfl⟩, ⟨rfl, rfl⟩, rfl⟩

theorem witness_RelayIsScheduledAgain : Inv (noticed [.lineEncodingChanged ⟨9600, 1, 0, 8⟩] [.notice]) ∧
    Good (noticed [.lineEncodingChanged ⟨9600, 1, 0, 8⟩] [.notice]) ∧
    Deployed (noticed [.lineEncodingChanged ⟨9600, 1, 0, 8⟩] [.notice]) :=
  ⟨⟨by decide, full4_queueInv, rfl⟩, ⟨rfl, rfl⟩, rfl⟩

theorem witness_RegistersChangeOnlyWhileDisabled :
    (lineWrites Config.vectorParams 207 0x06)[1]? = some (.divisor 207) ∧
    (lineWrites Config.vectorParams 207 0x06)[2]? = some (.mode 0x06) := by decide

end Sys2Proof.Tests
end

section
/-!
PROOF. Every step keeps the machine's invariant (O42): one lemma per operation that changes QUEUE, then the step.
-/
namespace Sys2Proof.Machine

open Sys2Proof

/-- One pass of EGRESS's loop keeps the parameters and the queue's invariants (R147). -/
theorem sendOne_keeps_queueInv {s t : State} {go : Bool} (hq : QueueInv s) (h : sendOne s = .ok (go, t)) :
    QueueInv t := by
  obtain ⟨v, st, w, n, -, hgo, -, hc, -, rfl⟩ := sendOne_ok h
  cases hs : isSent st with
  | true => simpa only [QueueInv, if_true] using hq.removed (hc (hgo.trans hs))
  | false => simpa only [QueueInv, Bool.false_eq_true, if_false] using hq

/-- EGRESS's loop keeps the queue's invariants, whatever its quota (R147). -/
theorem sendLoop_keeps_queueInv {n : Nat} {s t : State} (hq : QueueInv s) (h : sendLoop n s = .ok t) :
    QueueInv t := by
  induction n generalizing s with
  | zero => exact Except.ok.inj h ▸ hq
  | succ n ih =>
    unfold sendLoop at h
    split at h
    · cases h
    · rename_i u hu
      exact ih (sendOne_keeps_queueInv hq hu) h
    · rename_i u hu
      exact Except.ok.inj h ▸ sendOne_keeps_queueInv hq hu

/-- EGRESS keeps the queue's invariants (R147). -/
theorem execEgress_keeps_queueInv {s t : State} (hq : QueueInv s) (h : execEgress s = .next t) : QueueInv t := by
  obtain ⟨-, u, hu, rfl⟩ := execEgress_next h
  obtain ⟨ready, w, n, -, -, hbody⟩ := egressBody_spec s
  rw [hbody _ rfl] at hu
  cases ready with
  | true =>
    obtain ⟨v, hv, rfl⟩ := map_ok.mp hu
    have hqv : QueueInv v := sendLoop_keeps_queueInv (by exact hq) hv
    exact hqv
  | false =>
    obtain rfl := Except.ok.inj hu
    exact hq

/-- INGRESS keeps the queue's invariants (R143). -/
theorem execIngress_keeps_queueInv {s t : State} (hq : QueueInv s) (h : execIngress s = .next t) : QueueInv t := by
  obtain ⟨-, ⟨-, rfl⟩ | ⟨hc, u, hu, rfl⟩⟩ := execIngress_next h
  · exact hq
  · obtain ⟨a, x, n, -, -, rfl⟩ := ingressBody_ok hu
    cases hs : isSentinel a with
    | true => simpa only [QueueInv, if_true] using hq
    | false => simpa only [QueueInv, Bool.false_eq_true, if_false] using hq.inserted hc (receivedByte a)

/-- Every operation that completes keeps the queue's invariants (R25 to R27). -/
theorem exec_keeps_queueInv {i : Instr} {s t : State} (hq : QueueInv s) (h : exec i s = .next t) : QueueInv t := by
  cases i with
  | qinit =>
    obtain ⟨-, rfl⟩ := execQinit_next h
    exact Queue.Inv.empty hq.storeCanonical hq.cellsInStore (Nat.one_le_of_lt hq.rdInStore)
  | qisfull => exact Host.Outcome.next.inj h ▸ hq
  | qisempty => exact Host.Outcome.next.inj h ▸ hq
  | qcount => exact Host.Outcome.next.inj h ▸ hq
  | qinsert v =>
    obtain ⟨hc, -, rfl⟩ := execQinsert_next h
    exact hq.inserted hc v
  | qremove =>
    obtain ⟨hc, -, v, n, -, rfl⟩ := execQremove_next h
    exact hq.removed hc
  | qpeek =>
    obtain ⟨-, v, n, -, rfl⟩ := execQpeek_next h
    exact hq
  | ingress => exact execIngress_keeps_queueInv hq h
  | egress => exact execEgress_keeps_queueInv hq h
  | housekeep =>
    obtain ⟨-, rfl⟩ := execHousekeep_next h
    exact hq
  | setline =>
    obtain ⟨d, n, -, hs⟩ := execSetline_eq s
    obtain rfl := Host.Outcome.next.inj (hs.symm.trans h)
    exact hq

/-- Every operation that completes keeps the machine's invariant. -/
theorem exec_keeps_inv {i : Instr} {s t : State} (hi : Inv s) (h : exec i s = .next t) : Inv t := by
  obtain ⟨hp, -, -, -, -, hidle, -⟩ := exec_frame h
  exact ⟨hp ▸ hi.paramsOk, exec_keeps_queueInv hi.queueOk h, hidle hi.handlerIdle⟩

/-- The invariant speaks of no input and of no counter of free values. -/
theorem Inv.of_inputs_draws {s : State} (hi : Inv s) (x : Inputs) (n : Nat) :
    Inv { s with inputs := x, draws := n } := ⟨hi.paramsOk, hi.queueOk, hi.handlerIdle⟩

/-- Settles O42: the fetch changes inputs and the counter only, and every operation keeps the invariant. -/
theorem stepKeepsTheInvariant : Obligations.StepKeepsTheInvariant := by
  intro s t hi h
  obtain ⟨-, ⟨i, u, hf, he⟩ | hf⟩ := step_next h
  · obtain ⟨x, n, rfl⟩ := fetch_frame.1 i u hf
    exact exec_keeps_inv (hi.of_inputs_draws x n) he
  · obtain ⟨x, n, rfl⟩ := fetch_frame.2 t hf
    exact hi.of_inputs_draws x n

end Sys2Proof.Machine
end

section
/-!
PROOF. The MODE value tells the encoding (O35): each group of MODE is recovered with its group mask (R10, D36), and each
group tells its field.
-/
namespace Sys2Proof.Machine

open Sys2Proof

/-- A bit of a byte is set exactly where `Params.bitCount` counts it. -/
theorem getLsbD_iff_mem_bits (m : Byte) (k : Nat) :
    m.getLsbD k = true ↔ k ∈ (List.range 8).filter fun k => m.getLsbD k := by
  simp only [List.mem_filter, List.mem_range, iff_and_self]
  exact BitVec.lt_of_getLsbD

/-- A mask that covers another and has as many bits is that other one. -/
theorem eq_of_or_eq_of_bitCount_eq {a b : Byte} (hor : a ||| b = a)
    (hc : Params.bitCount b = Params.bitCount a) : b = a := by
  have hsub : ((List.range 8).filter fun k => b.getLsbD k).Sublist ((List.range 8).filter fun k => a.getLsbD k) := by
    apply List.monotone_filter_right
    intro k hk
    rw [← hor, BitVec.getLsbD_or, hk, Bool.or_true]
  have hbits := hsub.eq_of_length hc
  apply BitVec.eq_of_getLsbD_eq
  intro k _
  rw [Bool.eq_iff_iff, getLsbD_iff_mem_bits, hbits, ← getLsbD_iff_mem_bits]

/-- A mask with a bit is not zero. -/
theorem ne_zero_of_bitCount_ne_zero {m : Byte} (h : Params.bitCount m ≠ 0) : m ≠ 0#8 := by
  rintro rfl
  exact h (by decide)

/-- What R10 and D36 ask of the MODE masks, by name. -/
structure ModeMasks (p : Params) : Prop where
  oddBits : Params.bitCount p.mParOdd = 2
  evenBits : Params.bitCount p.mParEven = 1
  stopBit : Params.bitCount p.mStop2 = 1
  data6Bit : Params.bitCount p.mData6 = 1
  data7Bit : Params.bitCount p.mData7 = 1
  dataDiffer : p.mData6 ≠ p.mData7
  parityStop : (p.mParOdd ||| p.mParEven) &&& p.mStop2 = 0
  parityData : (p.mParOdd ||| p.mParEven) &&& (p.mData6 ||| p.mData7) = 0
  stopData : p.mStop2 &&& (p.mData6 ||| p.mData7) = 0

/-- Parameters the spec allows have such masks. -/
theorem modeMasks_of_wf {p : Params} (h : p.wf = true) : ModeMasks p := by
  simp only [Params.wf, Params.modeMasksOk, Bool.and_eq_true, beq_iff_eq, bne_iff_ne] at h
  obtain ⟨⟨-, ⟨⟨⟨⟨⟨⟨⟨h1, h2⟩, h3⟩, h4⟩, h5⟩, h6⟩, h7⟩, h8⟩, h9⟩, -⟩ := h
  exact ⟨h1, h2, h3, h4, h5, h6, h7, h8, h9⟩

/-! ## Each group of MODE tells its field -/

/-- The parity bits tell an in-domain parity: their masks are two, and neither is zero. -/
theorem parity_eq_of_parityBits_eq {p : Params} (hm : ModeMasks p) {v u : Byte} (hv : v.toNat ≤ 2)
    (hu : u.toNat ≤ 2) (h : parityBits p v = parityBits p u) : v = u := by
  have hcases : ∀ x : Byte, x.toNat ≤ 2 → x = 0 ∨ x = 1 ∨ x = 2 := by
    intro x hx
    bv_omega
  have hodd : p.mParOdd ≠ 0#8 := ne_zero_of_bitCount_ne_zero (by simp [hm.oddBits])
  have heven : p.mParEven ≠ 0#8 := ne_zero_of_bitCount_ne_zero (by simp [hm.evenBits])
  have hne : p.mParOdd ≠ p.mParEven := by
    intro heq
    have := hm.oddBits
    rw [heq, hm.evenBits] at this
    omega
  obtain rfl | rfl | rfl := hcases v hv <;> obtain rfl | rfl | rfl := hcases u hu <;>
    simp [parityBits, hodd, hodd.symm, heven, heven.symm, hne, hne.symm] at h ⊢

/-- The stop bit tells an in-domain number of stop bits. -/
theorem stop_eq_of_stopBits_eq {p : Params} (hm : ModeMasks p) {v u : Byte} (hv : v = 0 ∨ v = 2)
    (hu : u = 0 ∨ u = 2) (h : stopBits p v = stopBits p u) : v = u := by
  have hstop : p.mStop2 ≠ 0#8 := ne_zero_of_bitCount_ne_zero (by simp [hm.stopBit])
  obtain rfl | rfl := hv <;> obtain rfl | rfl := hu <;>
    simp [stopBits, hstop, hstop.symm] at h ⊢

/-- The data bits tell an in-domain number of data bits: neither one-bit mask covers the other. -/
theorem databits_eq_of_dataBits_eq {p : Params} (hm : ModeMasks p) {v u : Byte} (hv : v = 6 ∨ v = 7 ∨ v = 8)
    (hu : u = 6 ∨ u = 7 ∨ u = 8) (h : dataBits p v = dataBits p u) : v = u := by
  have hne := hm.dataDiffer
  have h6 : p.mData6 ||| p.mData7 ≠ p.mData6 := fun hor =>
    hne (eq_of_or_eq_of_bitCount_eq hor (hm.data7Bit.trans hm.data6Bit.symm)).symm
  have h7 : p.mData6 ||| p.mData7 ≠ p.mData7 := fun hor =>
    hne (eq_of_or_eq_of_bitCount_eq (BitVec.or_comm .. ▸ hor) (hm.data6Bit.trans hm.data7Bit.symm))
  obtain rfl | rfl | rfl := hv <;> obtain rfl | rfl | rfl := hu <;>
    simp [dataBits, hne, hne.symm, h6, h6.symm, h7, h7.symm] at h ⊢

/-! ## MODE tells its groups -/

/-- A byte is what it shares with itself and more. -/
theorem and_or_absorb (a b : Byte) : a &&& (a ||| b) = a := by
  ext k
  simpa using Or.inl

/-- What lies in one group shares no bit with a group disjoint from it. -/
theorem and_eq_zero_of_group {y S P : Byte} (hy : y &&& S = y) (h : S &&& P = 0) : y &&& P = 0 := by
  rw [← hy, BitVec.and_assoc, h]
  exact BitVec.and_zero

/-- The parity bits lie in the parity group. -/
theorem parityBits_and_group (p : Params) (v : Byte) :
    parityBits p v &&& (p.mParOdd ||| p.mParEven) = parityBits p v := by
  unfold parityBits
  split
  · exact and_or_absorb _ _
  · split
    · rw [BitVec.or_comm]
      exact and_or_absorb _ _
    · exact BitVec.zero_and

/-- The stop bit lies in the stop group. -/
theorem stopBits_and_group (p : Params) (v : Byte) : stopBits p v &&& p.mStop2 = stopBits p v := by
  unfold stopBits
  split
  · exact BitVec.and_self
  · exact BitVec.zero_and

/-- The data bits lie in the data group. -/
theorem dataBits_and_group (p : Params) (v : Byte) :
    dataBits p v &&& (p.mData6 ||| p.mData7) = dataBits p v := by
  unfold dataBits
  split
  · exact and_or_absorb _ _
  · split
    · rw [BitVec.or_comm]
      exact and_or_absorb _ _
    · split
      · exact BitVec.and_self
      · exact BitVec.zero_and

/-- The parity group of MODE holds the parity bits. -/
theorem modeOf_and_parityGroup {p : Params} (hm : ModeMasks p) (le : LineEncoding) :
    modeOf p le &&& (p.mParOdd ||| p.mParEven) = parityBits p le.parity := by
  have hs := and_eq_zero_of_group (stopBits_and_group p le.stop) ((BitVec.and_comm ..).trans hm.parityStop)
  have hd := and_eq_zero_of_group (dataBits_and_group p le.databits) ((BitVec.and_comm ..).trans hm.parityData)
  simp [modeOf, BitVec.and_or_distrib_right, parityBits_and_group, hs, hd]

/-- The stop group of MODE holds the stop bit. -/
theorem modeOf_and_stopGroup {p : Params} (hm : ModeMasks p) (le : LineEncoding) :
    modeOf p le &&& p.mStop2 = stopBits p le.stop := by
  have hp := and_eq_zero_of_group (parityBits_and_group p le.parity) hm.parityStop
  have hd := and_eq_zero_of_group (dataBits_and_group p le.databits) ((BitVec.and_comm ..).trans hm.stopData)
  simp [modeOf, BitVec.and_or_distrib_right, stopBits_and_group, hp, hd]

/-- The data group of MODE holds the data bits. -/
theorem modeOf_and_dataGroup {p : Params} (hm : ModeMasks p) (le : LineEncoding) :
    modeOf p le &&& (p.mData6 ||| p.mData7) = dataBits p le.databits := by
  have hp := and_eq_zero_of_group (parityBits_and_group p le.parity) hm.parityData
  have hs := and_eq_zero_of_group (stopBits_and_group p le.stop) hm.stopData
  simp [modeOf, BitVec.and_or_distrib_right, dataBits_and_group, hp, hs]

/-- Settles O35: each group mask recovers its group from MODE, and each group tells its field. -/
theorem modeValueTellsTheEncoding : Obligations.ModeValueTellsTheEncoding := by
  intro p a b hwf hpa hpb hsa hsb hda hdb h
  have hm := modeMasks_of_wf hwf
  refine ⟨parity_eq_of_parityBits_eq hm hpa hpb ?_, stop_eq_of_stopBits_eq hm hsa hsb ?_,
    databits_eq_of_dataBits_eq hm hda hdb ?_⟩
  · rw [← modeOf_and_parityGroup hm a, ← modeOf_and_parityGroup hm b, h]
  · rw [← modeOf_and_stopGroup hm a, ← modeOf_and_stopGroup hm b, h]
  · rw [← modeOf_and_dataGroup hm a, ← modeOf_and_dataGroup hm b, h]

end Sys2Proof.Machine
end

section
/-!
PROOF. No step depends on `SINK` (O50): every shared operation, every meaning and the fetch commute with a change of the
parameter (R13, R249). A `change` before a split shows that the test reads no `SINK`.
-/
namespace Sys2Proof.Machine

open Sys2Proof

section

variable (s : State) (k : Sink)

/-! ## The state's parts and updates -/

@[simp] theorem State.withSink_divisor : (s.withSink k).params.divisor = s.params.divisor := rfl
@[simp] theorem State.withSink_queue : (s.withSink k).queue = s.queue := rfl
@[simp] theorem State.withSink_phase : (s.withSink k).phase = s.phase := rfl
@[simp] theorem State.withSink_work : (s.withSink k).work = s.work := rfl
@[simp] theorem State.withSink_inputs : (s.withSink k).inputs = s.inputs := rfl
@[simp] theorem State.withSink_draws : (s.withSink k).draws = s.draws := rfl

@[simp] theorem State.withSink_withWork (w : Working) : (s.withSink k).withWork w = (s.withWork w).withSink k := rfl

@[simp] theorem isFull_withSink : isFull (s.withSink k) = isFull s := rfl
@[simp] theorem isEmpty_withSink : isEmpty (s.withSink k) = isEmpty s := rfl
@[simp] theorem modeOf_withSink (le : LineEncoding) : modeOf (s.withSink k).params le = modeOf s.params le := rfl
@[simp] theorem lineWrites_withSink (d : Half) (m : Byte) :
    lineWrites (s.withSink k).params d m = lineWrites s.params d m := rfl
@[simp] theorem setHandler_withSink (h : HandlerState) :
    setHandler (s.withSink k) h = (setHandler s h).withSink k := rfl

/-! ## The shared operations -/

/-- What an operation answers beside its state, kept, and the state with another `SINK`. -/
def withSinkBeside {α : Type} (k : Sink) (r : α × State) : α × State := (r.1, r.2.withSink k)

@[simp] theorem withSinkBeside_fst {α : Type} (r : α × State) : (withSinkBeside k r).1 = r.1 := rfl
@[simp] theorem withSinkBeside_snd {α : Type} (r : α × State) : (withSinkBeside k r).2 = r.2.withSink k := rfl

@[simp] theorem memRead_withSink (i : Nat) :
    memRead (s.withSink k) i = (memRead s i).map (withSinkBeside k) := by
  unfold memRead
  change (if i < s.params.capacity then _ else _) = _
  split
  · rw [State.withSink_queue]
    split <;> rfl
  · rfl

@[simp] theorem memWrite_withSink (i : Nat) (v : Byte) :
    memWrite (s.withSink k) i v = (memWrite s i v).map (·.withSink k) := by
  unfold memWrite
  change (if i < s.params.capacity then _ else _) = _
  split <;> rfl

@[simp] theorem insertByte_withSink (v : Byte) :
    insertByte (s.withSink k) v = (insertByte s v).map (·.withSink k) := by
  simp only [insertByte, isFull_withSink, State.withSink_queue, memWrite_withSink]
  split
  · rfl
  · cases memWrite s s.queue.wr v <;> rfl

@[simp] theorem removeByte_withSink : removeByte (s.withSink k) = (removeByte s).map (withSinkBeside k) := by
  simp only [removeByte, isEmpty_withSink, State.withSink_queue, memRead_withSink]
  split
  · rfl
  · cases memRead s s.queue.rd <;> rfl

@[simp] theorem peekByte_withSink : peekByte (s.withSink k) = (peekByte s).map (withSinkBeside k) :=
  memRead_withSink s k s.queue.rd

@[simp] theorem receiveByte_withSink : receiveByte (s.withSink k) = withSinkBeside k (receiveByte s) := by
  simp only [receiveByte, State.withSink_inputs]
  split <;> rfl

@[simp] theorem isSendReady_withSink : isSendReady (s.withSink k) = withSinkBeside k (isSendReady s) := by
  simp only [isSendReady, State.withSink_inputs]
  split <;> rfl

@[simp] theorem sendByte_withSink (b : Byte) : sendByte (s.withSink k) b = withSinkBeside k (sendByte s b) := by
  simp only [sendByte, State.withSink_inputs]
  split <;> rfl

@[simp] theorem divisorValue_withSink (baud : BitVec 32) :
    divisorValue (s.withSink k) baud = withSinkBeside k (divisorValue s baud) := by
  simp only [divisorValue, State.withSink_divisor]
  split <;> rfl

/-- Completion commutes with a change of the next state. -/
theorem complete_map (g : State → State) (r : Except Fault State) : complete (r.map g) = mapNext g (complete r) := by
  cases r <;> rfl

/-- Two maps of a result change places where their functions do. -/
theorem map_map_comm {α β : Type} {f : α → β} {g : α → α} {g' : β → β} (h : ∀ a, f (g a) = g' (f a))
    (r : Except Fault α) : (r.map g).map f = (r.map f).map g' := by
  cases r with
  | error e => rfl
  | ok a => exact congrArg Except.ok (h a)

/-! ## The relay's bodies -/

theorem ingressBody_withSink : ingressBody (s.withSink k) = (ingressBody s).map (·.withSink k) := by
  simp only [ingressBody, receiveByte_withSink, withSinkBeside_fst, withSinkBeside_snd, State.withSink_work,
    State.withSink_withWork, insertByte_withSink]
  split
  · rfl
  · exact map_map_comm (fun _ => by rfl) _

theorem sendOne_withSink : sendOne (s.withSink k) = (sendOne s).map (withSinkBeside k) := by
  simp only [sendOne, peekByte_withSink]
  cases peekByte s with
  | error f => rfl
  | ok r =>
    simp only [Except.map, withSinkBeside, State.withSink_work, State.withSink_withWork, sendByte_withSink,
      removeByte_withSink]
    split
    · cases removeByte _ <;> rfl
    · rfl

theorem sendLoop_withSink (n : Nat) : sendLoop n (s.withSink k) = (sendLoop n s).map (·.withSink k) := by
  induction n generalizing s with
  | zero => rfl
  | succ n ih =>
    simp only [sendLoop, sendOne_withSink]
    match sendOne s with
    | .error f => rfl
    | .ok (true, t) => exact ih t
    | .ok (false, t) => rfl

theorem egressBody_withSink : egressBody (s.withSink k) = (egressBody s).map (·.withSink k) := by
  simp only [egressBody, State.withSink_work, State.withSink_queue, State.withSink_withWork, isSendReady_withSink,
    withSinkBeside_fst, withSinkBeside_snd]
  split
  · rw [sendLoop_withSink]
    exact map_map_comm (fun _ => by rfl) _
  · rfl

/-! ## The operations -/

theorem foldl_regWrite_withSink (ws : List RegWrite) :
    ws.foldl regWrite (s.withSink k) = (ws.foldl regWrite s).withSink k := by
  induction ws generalizing s with
  | nil => rfl
  | cons w ws ih => exact ih (regWrite s w)

theorem execSetline_withSink : execSetline (s.withSink k) = mapNext (·.withSink k) (execSetline s) := by
  simp only [execSetline, lineOperand, State.withSink_inputs, setHandler_withSink, modeOf_withSink,
    divisorValue_withSink, withSinkBeside_fst, withSinkBeside_snd, lineWrites_withSink, foldl_regWrite_withSink]
  rfl

/-- No operation depends on `SINK` (R249). -/
theorem exec_withSink (i : Instr) : exec i (s.withSink k) = mapNext (·.withSink k) (exec i s) := by
  cases i with
  | qinit =>
    simp only [exec, execQinit]
    change (if s.book.inited then _ else _) = _
    split <;> rfl
  | qisfull => rfl
  | qisempty => rfl
  | qcount => rfl
  | qinsert v =>
    simp only [exec, execQinsert, insertByte_withSink, ← complete_map]
    exact congrArg complete (map_map_comm (fun _ => by rfl) _)
  | qremove =>
    simp only [exec, execQremove, removeByte_withSink, ← complete_map]
    exact congrArg complete (map_map_comm (fun _ => by rfl) _)
  | qpeek =>
    simp only [exec, execQpeek, peekByte_withSink, ← complete_map]
    exact congrArg complete (map_map_comm (fun _ => by rfl) _)
  | ingress =>
    simp only [exec, execIngress, State.withSink_phase, isFull_withSink, ingressBody_withSink]
    split
    · split
      · rfl
      · rw [← complete_map]
        exact congrArg complete (map_map_comm (fun _ => by rfl) _)
    · rfl
  | egress =>
    simp only [exec, execEgress, State.withSink_phase, egressBody_withSink]
    split
    · rw [← complete_map]
      exact congrArg complete (map_map_comm (fun _ => by rfl) _)
    · rfl
  | housekeep =>
    simp only [exec, execHousekeep]
    change (if s.phase = .housekeep then _ else _) = _
    split <;> rfl
  | setline => exact execSetline_withSink s k

/-! ## The fetch and the step -/

/-- What was fetched, with another `SINK` in its state. -/
def Fetched.withSink (k : Sink) : Fetched → Fetched
  | .run i s => .run i (s.withSink k)
  | .idle s => .idle (s.withSink k)
  | .refuse r => .refuse r

theorem takeTurn_withSink : takeTurn (s.withSink k) = withSinkBeside k (takeTurn s) := by
  simp only [takeTurn, State.withSink_inputs, State.withSink_draws]
  split
  · rfl
  · split <;> rfl

theorem fetchCommand_withSink (c : Command) (rest : List Command) :
    fetchCommand (s.withSink k) c rest = (fetchCommand s c rest).withSink k := by
  match c with
  | .word w le =>
    simp only [fetchCommand]
    cases decode w <;> rfl
  | .pins (some v) false => rfl
  | .pins none true => rfl
  | .pins none false => rfl
  | .pins (some v) true => rfl

theorem fetchNotice_withSink (n : Notice) (rest : List Notice) :
    fetchNotice (s.withSink k) n rest = (fetchNotice s n rest).withSink k := by
  cases n <;> rfl

theorem fetchDeployed_withSink : fetchDeployed (s.withSink k) = (fetchDeployed s).withSink k := by
  simp only [fetchDeployed, State.withSink_inputs, takeTurn_withSink]
  split
  · rfl
  · match takeTurn s with
    | (.relay, u) => rfl
    | (.notice, u) => exact fetchNotice_withSink u k _ _

theorem fetch_withSink : fetch (s.withSink k) = (fetch s).withSink k := by
  simp only [fetch, State.withSink_inputs]
  split
  · exact fetchCommand_withSink s k _ _
  · exact fetchDeployed_withSink s k

/-- Where a run has ended, no `SINK` changes how. -/
theorem mapNext_stopped {o : Host.Outcome State Fault Refusal} (g : State → State) (h : stopped s = some o) :
    mapNext g o = o := by
  cases o with
  | next t => exact absurd rfl (stopped_not_next h)
  | fault f => rfl
  | refused r => rfl

end

/-- Settles O50: what has stopped, what is fetched and what is executed are the same but for `SINK`. -/
theorem sinkChoiceIsInvisible : Obligations.SinkChoiceIsInvisible := by
  intro s k
  have hstop : stopped (s.withSink k) = stopped s := rfl
  simp only [step, hstop, fetch_withSink]
  cases hs : stopped s with
  | some o => exact (mapNext_stopped s _ hs).symm
  | none =>
    cases fetch s with
    | run i u => exact exec_withSink u k i
    | idle u => rfl
    | refuse r => rfl

end Sys2Proof.Machine
end

section
/-!
PROOF. What stands in the state (spec/10_state.md): the values and the invariants reset leaves (O10, O11), the queue's
invariants (O20), the bits of MODE (O36), what a step only adds to (O45) and who writes QUEUE (O49).
-/
namespace Sys2Proof.Machine

open Sys2Proof

/-! ## Reset -/

/-- Settles O10: every clause is a field of the reset state; only `full` needs the capacity. -/
theorem resetLeavesTheTableValues : Obligations.ResetLeavesTheTableValues := by
  intro p s
  have hfull (hp : 1 ≤ p.capacity) : isFull s = false := beq_eq_false_iff_ne.mpr (Nat.ne_of_lt hp)
  exact ⟨rfl, Memory.read_nil, rfl, rfl, rfl, rfl, hfull, rfl, rfl, rfl, rfl, rfl⟩

/-- Parameters the spec allows have a capacity (R8). -/
theorem capacity_pos_of_wf {p : Params} (h : p.wf = true) : 1 ≤ p.capacity := by
  simp only [Params.wf, Params.sizesOk, Bool.and_eq_true, decide_eq_true_eq] at h
  obtain ⟨⟨⟨hcap, -⟩, -⟩, -⟩ := h
  exact hcap

/-- Settles O11: the queue is the empty one over an empty store, and no byte has been received, sent or queued. -/
theorem resetMeetsTheInvariant : Obligations.ResetMeetsTheInvariant := by
  intro p hp
  have hq : Queue.Inv p.capacity ⟨[], 0, 0, 0⟩ :=
    Queue.Inv.empty Memory.wf_nil (by simp) (capacity_pos_of_wf hp)
  exact ⟨⟨hp, hq, rfl⟩, ⟨rfl, rfl⟩, rfl⟩

/-! ## The queue -/

/-- An empty and a full queue have equal cursors (R26). -/
theorem Queue.Inv.rd_eq_wr {n : Nat} {q : Queue} (h : q.Inv n) (hc : q.count = 0 ∨ q.count = n) : q.rd = q.wr := by
  have hmod : q.rd % n = q.rd := Nat.mod_eq_of_lt h.rdInStore
  rw [h.cursorRelation]
  obtain hc | hc := hc
  · rw [hc, Nat.add_zero, hmod]
  · rw [hc, Nat.add_mod_right, hmod]

/-- Settles O20: QINIT leaves the empty queue over the store it found. -/
theorem queueInvariantsAreKept : Obligations.QueueInvariantsAreKept := by
  refine ⟨fun s t hwf hin hcap h => ?_, fun i s t => exec_keeps_queueInv, fun s => Queue.Inv.rd_eq_wr⟩
  obtain ⟨-, rfl⟩ := execQinit_next h
  exact Queue.Inv.empty hwf hin hcap

/-- The queries, QPEEK, HOUSEKEEP and SETLINE leave QUEUE as it is (R21 to R24). -/
theorem exec_queue_eq {i : Instr} {s t : State}
    (hi : i = .qisfull ∨ i = .qisempty ∨ i = .qcount ∨ i = .qpeek ∨ i = .housekeep ∨ i = .setline)
    (h : exec i s = .next t) : t.queue = s.queue := by
  obtain rfl | rfl | rfl | rfl | rfl | rfl := hi
  · exact Host.Outcome.next.inj h ▸ rfl
  · exact Host.Outcome.next.inj h ▸ rfl
  · exact Host.Outcome.next.inj h ▸ rfl
  · obtain ⟨-, v, n, -, rfl⟩ := execQpeek_next h
    rfl
  · obtain ⟨-, rfl⟩ := execHousekeep_next h
    rfl
  · obtain ⟨d, n, -, hs⟩ := execSetline_eq s
    obtain rfl := Host.Outcome.next.inj (hs.symm.trans h)
    rfl

/-- INGRESS leaves `rd` (R22, R143). -/
theorem execIngress_rd {s t : State} (h : execIngress s = .next t) : t.queue.rd = s.queue.rd := by
  obtain ⟨-, ⟨-, rfl⟩ | ⟨-, u, hu, rfl⟩⟩ := execIngress_next h
  · rfl
  · obtain ⟨a, x, n, -, -, rfl⟩ := ingressBody_ok hu
    dsimp only
    split <;> rfl

/-- Settles O49: the five operations that write QUEUE each leave the fields the statement says; the others leave all. -/
theorem queueWritersAreTheNamedOnes : Obligations.QueueWritersAreTheNamedOnes := by
  intro i s t h
  cases i with
  | qinit =>
    obtain ⟨-, rfl⟩ := execQinit_next h
    exact ⟨fun _ _ => rfl, by simp, by simp, by simp⟩
  | qinsert v =>
    obtain ⟨-, -, rfl⟩ := execQinsert_next h
    exact ⟨by simp [Instr.inserted], fun _ _ _ => rfl, by simp [Instr.inserted], by simp⟩
  | qremove =>
    obtain ⟨-, -, v, n, -, rfl⟩ := execQremove_next h
    exact ⟨fun _ _ => rfl, by simp, fun _ _ _ => rfl, by simp⟩
  | ingress => exact ⟨by simp, fun _ _ _ => execIngress_rd h, by simp, by simp⟩
  | egress =>
    obtain ⟨-, q, w, x, y, m, new, rfl, hstorage, hwr, -⟩ := execEgress_frame h
    exact ⟨fun _ _ => hstorage, by simp, fun _ _ _ => hwr, by simp⟩
  | qisfull | qisempty | qcount | qpeek | housekeep | setline => simp [exec_queue_eq (by simp) h]

/-! ## MODE -/

/-- What lies in a group has no bit outside it. -/
theorem getLsbD_eq_false_of_group {y S : Byte} (hy : y &&& S = y) {k : Nat} (hk : S.getLsbD k = false) :
    y.getLsbD k = false := by
  rw [← hy, BitVec.getLsbD_and, hk, Bool.and_false]

/-- Settles O36: each part of MODE lies in its group, whatever the masks are. -/
theorem modeBitsOutsideTheGroupsAreZero : Obligations.ModeBitsOutsideTheGroupsAreZero := by
  intro p le k h
  simp only [BitVec.getLsbD_or, Bool.or_eq_false_iff] at h
  obtain ⟨⟨⟨⟨hodd, heven⟩, hstop⟩, h6⟩, h7⟩ := h
  have hparity := getLsbD_eq_false_of_group (parityBits_and_group p le.parity) (k := k) (by simp [hodd, heven])
  have hstops := getLsbD_eq_false_of_group (stopBits_and_group p le.stop) hstop
  have hdata := getLsbD_eq_false_of_group (dataBits_and_group p le.databits) (k := k) (by simp [h6, h7])
  simp [modeOf, hparity, hstops, hdata]

/-! ## The step -/

/-- Settles O45: the fetch changes inputs and the counter only, and every operation keeps the record. -/
theorem stepsOnlyAddToTheRecord : Obligations.StepsOnlyAddToTheRecord := by
  intro s t h
  obtain ⟨hgood, ⟨i, u, hf, he⟩ | hf⟩ := step_next h
  · obtain ⟨x, n, rfl⟩ := fetch_frame.1 i u hf
    obtain ⟨hparams, hfaults, hrefused, hinited, htrace, -⟩ := exec_frame he
    exact ⟨hgood, hparams, hfaults, hrefused, hinited, htrace⟩
  · obtain ⟨x, n, rfl⟩ := fetch_frame.2 t hf
    exact ⟨hgood, rfl, rfl, rfl, id, [], (List.append_nil _).symm⟩

end Sys2Proof.Machine
end

section
/-!
PROOF. The line registers and the relay share nothing (O47, R41): no queue or relay operation notices a change of the
state outside what it reads and writes, of which a change of LINECFG is one.
-/
namespace Sys2Proof.Machine

open Sys2Proof

/-- A change of the state that no queue or relay operation notices: it leaves what they read, and it can be made before
or after each of their updates. -/
structure Unnoticed (g : State → State) : Prop where
  params : ∀ s, (g s).params = s.params
  queue : ∀ s, (g s).queue = s.queue
  phase : ∀ s, (g s).phase = s.phase
  work : ∀ s, (g s).work = s.work
  book : ∀ s, (g s).book = s.book
  inputs : ∀ s, (g s).inputs = s.inputs
  draws : ∀ s, (g s).draws = s.draws
  withQueue : ∀ s q, (g s).withQueue q = g (s.withQueue q)
  withPhase : ∀ s p, (g s).withPhase p = g (s.withPhase p)
  withWork : ∀ s w, (g s).withWork w = g (s.withWork w)
  withBook : ∀ s b, (g s).withBook b = g (s.withBook b)
  withInputs : ∀ s x, (g s).withInputs x = g (s.withInputs x)
  returns : ∀ s r, (g s).returns r = g (s.returns r)
  record : ∀ s e, (g s).record e = g (s.record e)
  tick : ∀ s, (g s).tick = g s.tick

namespace Unnoticed

section

variable {g : State → State} (hg : Unnoticed g) (s : State)

include hg

/-! ## The shared operations -/

theorem isFull_eq : isFull (g s) = isFull s := by
  simp only [isFull, hg.queue, hg.params]

theorem isEmpty_eq : isEmpty (g s) = isEmpty s := by
  simp only [isEmpty, hg.queue]

theorem memRead_comm (i : Nat) : memRead (g s) i = (memRead s i).map (Prod.map id g) := by
  simp only [memRead, hg.params, hg.queue, hg.draws, hg.tick]
  split
  · split <;> rfl
  · rfl

theorem memWrite_comm (i : Nat) (v : Byte) : memWrite (g s) i v = (memWrite s i v).map g := by
  simp only [memWrite, hg.params, hg.queue, hg.withQueue]
  split <;> rfl

theorem insertByte_comm (v : Byte) : insertByte (g s) v = (insertByte s v).map g := by
  simp only [insertByte, hg.isFull_eq, hg.queue, hg.memWrite_comm]
  split
  · rfl
  · cases memWrite s s.queue.wr v with
    | error f => rfl
    | ok t => simp only [Except.map, hg.params, hg.queue, hg.withQueue]

theorem removeByte_comm : removeByte (g s) = (removeByte s).map (Prod.map id g) := by
  simp only [removeByte, hg.isEmpty_eq, hg.queue, hg.memRead_comm]
  split
  · rfl
  · cases memRead s s.queue.rd with
    | error f => rfl
    | ok r => simp only [Except.map, Prod.map, id, hg.params, hg.queue, hg.withQueue]

theorem peekByte_comm : peekByte (g s) = (peekByte s).map (Prod.map id g) := by
  simp only [peekByte, hg.queue, hg.memRead_comm]

theorem receiveByte_comm : receiveByte (g s) = Prod.map id g (receiveByte s) := by
  simp only [receiveByte, hg.inputs, hg.draws, hg.withInputs, hg.record, hg.tick]
  split <;> rfl

theorem isSendReady_comm : isSendReady (g s) = Prod.map id g (isSendReady s) := by
  simp only [isSendReady, hg.inputs, hg.draws, hg.withInputs, hg.record, hg.tick]
  split <;> rfl

theorem sendByte_comm (b : Byte) : sendByte (g s) b = Prod.map id g (sendByte s b) := by
  simp only [sendByte, hg.inputs, hg.draws, hg.withInputs, hg.record, hg.tick]
  split <;> rfl

theorem endPhase_comm : (g s).endPhase = g s.endPhase := by
  simp only [State.endPhase, hg.phase, hg.withPhase, hg.returns]

theorem retireIngress_comm : (g s).retireIngress = g s.retireIngress := by
  simp only [State.retireIngress, hg.work, hg.draws, hg.withWork, hg.tick]

theorem retireEgress_comm : (g s).retireEgress = g s.retireEgress := by
  simp only [State.retireEgress, hg.work, hg.draws, hg.withWork, hg.tick]

/-! ## The relay's bodies -/

theorem ingressBody_comm : ingressBody (g s) = (ingressBody s).map g := by
  simp only [ingressBody, hg.receiveByte_comm, Prod.map_fst, Prod.map_snd, id, hg.work, hg.withWork,
    hg.insertByte_comm, hg.retireIngress_comm]
  split
  · rfl
  · exact map_map_comm hg.retireIngress_comm _

theorem sendOne_comm : sendOne (g s) = (sendOne s).map (Prod.map id g) := by
  simp only [sendOne, hg.peekByte_comm]
  cases peekByte s with
  | error f => rfl
  | ok r =>
    simp only [Except.map, Prod.map_fst, Prod.map_snd, id, hg.work, hg.withWork, hg.sendByte_comm, hg.removeByte_comm]
    split
    · cases removeByte _ with
      | error f => rfl
      | ok r => simp only [Prod.map, id, hg.work, hg.withWork]
    · rfl

theorem sendLoop_comm (n : Nat) : sendLoop n (g s) = (sendLoop n s).map g := by
  induction n generalizing s with
  | zero => rfl
  | succ n ih =>
    simp only [sendLoop, hg.sendOne_comm]
    match sendOne s with
    | .error f => rfl
    | .ok (true, t) => exact ih t
    | .ok (false, t) => rfl

theorem egressBody_comm : egressBody (g s) = (egressBody s).map g := by
  simp only [egressBody, hg.work, hg.queue, hg.withWork, hg.isSendReady_comm, Prod.map_fst, Prod.map_snd, id,
    egressQuota, hg.params, hg.sendLoop_comm, hg.retireEgress_comm]
  split
  · exact map_map_comm hg.retireEgress_comm _
  · rfl

/-! ## The operations -/

/-- No queue or relay operation notices the change. -/
theorem exec_comm {i : Instr} (hi : i ≠ .setline) : exec i (g s) = mapNext g (exec i s) := by
  cases i with
  | qinit =>
    simp only [exec, execQinit, hg.book, hg.queue, hg.withQueue, hg.withBook, hg.returns]
    split <;> rfl
  | qisfull => simp only [exec, execQisfull, hg.isFull_eq, hg.returns, mapNext]
  | qisempty => simp only [exec, execQisempty, hg.isEmpty_eq, hg.returns, mapNext]
  | qcount => simp only [exec, execQcount, hg.queue, hg.returns, mapNext]
  | qinsert v =>
    simp only [exec, execQinsert, hg.insertByte_comm, ← complete_map]
    exact congrArg complete (map_map_comm (fun _ => hg.returns _ _) _)
  | qremove =>
    simp only [exec, execQremove, hg.removeByte_comm, ← complete_map]
    exact congrArg complete (map_map_comm (fun _ => hg.returns _ _) _)
  | qpeek =>
    simp only [exec, execQpeek, hg.peekByte_comm, ← complete_map]
    exact congrArg complete (map_map_comm (fun _ => hg.returns _ _) _)
  | ingress =>
    simp only [exec, execIngress, hg.phase, hg.isFull_eq, hg.endPhase_comm, hg.ingressBody_comm]
    split
    · split
      · rfl
      · rw [← complete_map]
        exact congrArg complete (map_map_comm hg.endPhase_comm _)
    · rfl
  | egress =>
    simp only [exec, execEgress, hg.phase, hg.egressBody_comm]
    split
    · rw [← complete_map]
      exact congrArg complete (map_map_comm hg.endPhase_comm _)
    · rfl
  | housekeep =>
    simp only [exec, execHousekeep, periodicTask, hg.phase, hg.record, hg.endPhase_comm]
    split <;> rfl
  | setline => exact absurd rfl hi

end

/-- A change of the LINECFG registers goes unnoticed. -/
theorem withLine (l : Line) : Unnoticed (·.withLine l) := by
  constructor <;> intros <;> rfl

end Unnoticed

/-- No queue or relay operation writes a LINECFG register (R41). -/
theorem exec_line {i : Instr} {s t : State} (hi : i ≠ .setline) (h : exec i s = .next t) : t.line = s.line := by
  have hcomm := (Unnoticed.withLine s.line).exec_comm s hi
  have hself : s.withLine s.line = s := rfl
  simp only [hself, h, mapNext, Host.Outcome.next.injEq] at hcomm
  rw [hcomm, State.withLine_line]

/-- SETLINE notices no change of QUEUE, `phase` and the working registers (R41). -/
theorem execSetline_unnoticed (s : State) (q : Queue) (p : Phase) (w : Working) :
    execSetline (((s.withQueue q).withPhase p).withWork w) =
      mapNext (fun t => ((t.withQueue q).withPhase p).withWork w) (execSetline s) := by
  have hparams : (setHandler (((s.withQueue q).withPhase p).withWork w) .reconfiguring).params = s.params := rfl
  have hparams' : (setHandler s .reconfiguring).params = s.params := rfl
  have hle : (((s.withQueue q).withPhase p).withWork w).inputs = s.inputs := rfl
  simp only [execSetline, divisorValue, lineOperand, hparams, hparams', hle]
  cases divisorOf s.params.divisor Config.doubleSpeed s.inputs.le.baud.toNat <;> rfl

/-- Settles O47: neither side notices a change of the other's registers, and neither writes them. -/
theorem lineConfigAndRelayShareNothing : Obligations.LineConfigAndRelayShareNothing := by
  refine ⟨fun i s l hi => (Unnoticed.withLine l).exec_comm s hi, fun i s t => exec_line, execSetline_unnoticed, ?_⟩
  intro s t h
  obtain ⟨d, n, -, hs⟩ := execSetline_eq s
  obtain rfl := Host.Outcome.next.inj (hs.symm.trans h)
  exact ⟨rfl, rfl, rfl⟩

end Sys2Proof.Machine
end

section
/-!
PROOF. The deployed core conserves bytes (O44, R63, R155, R156): what an operation of the relay adds to the bytes sent and
leaves queued is what was queued and what it adds to the bytes received, in order.
-/
namespace Sys2Proof.Machine

open Sys2Proof

/-! ## Bytes moved from one state to a later one -/

/-- From `s` to `t` the trace grew, and the bytes it grew by as sent, then what `t` queues, are what `s` queued, then the
bytes it grew by as received. -/
def Moved (s t : State) : Prop := ∃ new, t.trace = s.trace ++ new ∧
  (sentBytes new).map some ++ t.content = s.content ++ (receivedBytes new).map some

theorem receivedBytes_append (a b : List Event) : receivedBytes (a ++ b) = receivedBytes a ++ receivedBytes b :=
  List.filterMap_append

theorem sentBytes_append (a b : List Event) : sentBytes (a ++ b) = sentBytes a ++ sentBytes b :=
  List.filterMap_append

/-- Events that neither bring in nor send off a byte move none, where the content stays. -/
theorem Moved.of_quiet {s t : State} {new : List Event} (htrace : t.trace = s.trace ++ new)
    (hsent : sentBytes new = []) (hreceived : receivedBytes new = []) (hcontent : t.content = s.content) : Moved s t :=
  ⟨new, htrace, by simp [hsent, hreceived, hcontent]⟩

/-- Where neither the trace nor the content changes, no byte moves. -/
theorem Moved.of_eq {s t : State} (htrace : t.trace = s.trace) (hcontent : t.content = s.content) : Moved s t :=
  Moved.of_quiet (new := []) (htrace.trans (List.append_nil _).symm) rfl rfl hcontent

theorem Moved.trans {s u t : State} (hsu : Moved s u) (hut : Moved u t) : Moved s t := by
  obtain ⟨new, htrace, hmoved⟩ := hsu
  obtain ⟨new', htrace', hmoved'⟩ := hut
  refine ⟨new ++ new', by rw [htrace', htrace, List.append_assoc], ?_⟩
  rw [sentBytes_append, receivedBytes_append, List.map_append, List.map_append, List.append_assoc, hmoved',
    ← List.append_assoc, hmoved, List.append_assoc]

/-- Moving bytes keeps the balance of R63. -/
theorem Conserved.of_moved {s t : State} (hs : Conserved s) (h : Moved s t) : Conserved t := by
  obtain ⟨new, htrace, hmoved⟩ := h
  unfold Conserved at hs ⊢
  rw [htrace, receivedBytes_append, sentBytes_append, List.map_append, List.map_append, hs, List.append_assoc,
    List.append_assoc, hmoved]

/-! ## The relay's operations -/

/-- EGRESS's loop is a chain of its passes (R147). -/
theorem sendLoop_chain {n : Nat} {s t : State} (h : sendLoop n s = .ok t) :
    Relation.ReflTransGen (fun s t => ∃ go, sendOne s = .ok (go, t)) s t := by
  induction n generalizing s with
  | zero => exact Except.ok.inj h ▸ .refl
  | succ n ih =>
    unfold sendLoop at h
    split at h
    · cases h
    · rename_i u hu
      exact .head ⟨true, hu⟩ (ih h)
    · rename_i u hu
      exact Except.ok.inj h ▸ .single ⟨false, hu⟩

/-- EGRESS as its probe, then its loop (of no pass where the sink is not ready), then what the trace, QUEUE and the
parameters do not show (R147, R152). -/
theorem execEgress_sendLoop {s t : State} (h : execEgress s = .next t) : ∃ ready n u v,
    u.trace = s.trace ++ [.isSendReady ready] ∧ u.queue = s.queue ∧ u.params = s.params ∧
    sendLoop n u = .ok v ∧ t.trace = v.trace ∧ t.queue = v.queue ∧ t.params = v.params := by
  obtain ⟨-, a, ha, rfl⟩ := execEgress_next h
  obtain ⟨ready, w, n, -, -, hbody⟩ := egressBody_spec s
  obtain ⟨u, hu⟩ : ∃ u : State, u = { s with
      work := w
      inputs := { s.inputs with readyIn := s.inputs.readyIn.tail }
      trace := s.trace ++ [.isSendReady ready]
      draws := n } := ⟨_, rfl⟩
  rw [hbody u hu] at ha
  obtain ⟨k, v, hv, rfl⟩ : ∃ k v, sendLoop k u = .ok v ∧ v.retireEgress = a := by
    cases ready with
    | true => exact ⟨_, map_ok.mp ha⟩
    | false => exact ⟨0, u, rfl, Except.ok.inj ha⟩
  exact ⟨ready, k, u, v, hu ▸ rfl, hu ▸ rfl, hu ▸ rfl, hv, rfl, rfl, rfl⟩

/-- The content is a function of QUEUE and the capacity (R27). -/
theorem content_congr {s t : State} (hq : t.queue = s.queue) (hp : t.params = s.params) : t.content = s.content := by
  simp only [State.content, hq, hp]

/-- A pass of EGRESS's loop that succeeds sends the head it removes; one that fails sends and removes nothing (R151). -/
theorem sendOne_moved {s t : State} {go : Bool} (hq : QueueInv s) (h : sendOne s = .ok (go, t)) : Moved s t := by
  obtain ⟨v, st, w, n, hv, hgo, -, hc, -, rfl⟩ := sendOne_ok h
  cases hs : isSent st with
  | true =>
    have hc := hc (hgo.trans hs)
    obtain ⟨b, hb⟩ := hq.head hc
    obtain rfl := hv b hb
    have hcontent := content_removed hc
    rw [Nat.mod_eq_of_lt hq.rdInStore, hb] at hcontent
    refine ⟨[.sendByte v st], rfl, ?_⟩
    simp only [hcontent, sentBytes, receivedBytes, List.filterMap_cons, List.filterMap_nil, Event.sent, Event.received,
      hs, if_true, List.map_nil, List.append_nil]
    rfl
  | false => exact Moved.of_quiet (new := [.sendByte v st]) rfl (by simp [sentBytes, Event.sent, hs]) rfl rfl

/-- EGRESS's loop moves bytes from the content to the bytes sent (R147). -/
theorem sendLoop_moved {n : Nat} {s t : State} (hq : QueueInv s) (h : sendLoop n s = .ok t) : Moved s t := by
  suffices hboth : QueueInv t ∧ Moved s t from hboth.2
  replace h := sendLoop_chain h
  induction h with
  | refl => exact ⟨hq, .of_eq rfl rfl⟩
  | tail _ hpass ih =>
    obtain ⟨go, hpass⟩ := hpass
    obtain ⟨hq, hmoved⟩ := ih
    exact ⟨sendOne_keeps_queueInv hq hpass, hmoved.trans (sendOne_moved hq hpass)⟩

/-- EGRESS moves bytes from the content to the bytes sent (R147, R151). -/
theorem execEgress_moved {s t : State} (hq : QueueInv s) (h : execEgress s = .next t) : Moved s t := by
  obtain ⟨ready, n, u, v, htrace, hqueue, hparams, hloop, htrace', hqueue', hparams'⟩ := execEgress_sendLoop h
  have hprobe : Moved s u := Moved.of_quiet htrace rfl rfl (content_congr hqueue hparams)
  have hsend := sendLoop_moved (by rw [QueueInv, hqueue, hparams]; exact hq) hloop
  exact hprobe.trans (hsend.trans (.of_eq htrace' (content_congr hqueue' hparams')))

/-- INGRESS queues the byte it receives, behind the content (R143, R146). -/
theorem execIngress_moved {s t : State} (hq : QueueInv s) (h : execIngress s = .next t) : Moved s t := by
  obtain ⟨-, ⟨-, rfl⟩ | ⟨hc, u, hu, rfl⟩⟩ := execIngress_next h
  · exact .of_eq rfl rfl
  · obtain ⟨a, x, n, -, -, rfl⟩ := ingressBody_ok hu
    cases hs : isSentinel a with
    | true => exact Moved.of_quiet (new := [.receiveByte a]) rfl rfl (by simp [receivedBytes, Event.received, hs]) rfl
    | false =>
      have hcontent := content_inserted hq.cursorRelation (Nat.lt_of_le_of_ne hq.countInRange hc) (receivedByte a)
      refine ⟨[.receiveByte a], rfl, ?_⟩
      simp only [receivedBytes, List.filterMap_cons, List.filterMap_nil, Event.received, hs]
      exact hcontent

/-- The relay's phases and SETLINE, the operations the deployed core runs, move bytes and lose none (R155). -/
theorem exec_moved {i : Instr} {s t : State} (hi : i.isQueueOp = false) (hq : QueueInv s) (h : exec i s = .next t) :
    Moved s t := by
  cases i with
  | ingress => exact execIngress_moved hq h
  | egress => exact execEgress_moved hq h
  | housekeep =>
    obtain ⟨-, rfl⟩ := execHousekeep_next h
    exact Moved.of_quiet (new := [.periodicTask]) rfl rfl rfl rfl
  | setline =>
    obtain ⟨d, n, -, hs⟩ := execSetline_eq s
    obtain rfl := Host.Outcome.next.inj (hs.symm.trans h)
    exact Moved.of_quiet rfl rfl rfl rfl
  | qinit | qisfull | qisempty | qcount | qinsert | qremove | qpeek => cases hi

/-! ## The step -/

/-- The deployed core runs no queue operation on its own: a phase, or SETLINE for a notification (R140, R213). -/
theorem fetch_isQueueOp_of_deployed {s u : State} {i : Instr} (hd : Deployed s) (h : fetch s = .run i u) :
    i.isQueueOp = false := by
  have hphase (p : Phase) : (phaseInstr p).isQueueOp = false := by cases p <;> rfl
  rw [Deployed] at hd
  simp only [fetch, hd, fetchDeployed] at h
  split at h
  · obtain ⟨rfl, -⟩ := Fetched.run.inj h
    exact hphase _
  · split at h
    · obtain ⟨rfl, -⟩ := Fetched.run.inj h
      exact hphase _
    · unfold fetchNotice at h
      split at h
      · obtain ⟨rfl, -⟩ := Fetched.run.inj h
        rfl
      · cases h

/-- Settles O44: the fetch moves no byte and picks no queue operation; what it picks moves bytes and loses none. -/
theorem deployedCoreConservesBytes : Obligations.DeployedCoreConservesBytes := by
  intro s t hinv hd hcons h
  obtain ⟨-, ⟨i, u, hf, he⟩ | hf⟩ := step_next h
  · have hi := fetch_isQueueOp_of_deployed hd hf
    obtain ⟨x, n, rfl⟩ := fetch_frame.1 i u hf
    exact Conserved.of_moved (by exact hcons) (exec_moved hi (by exact hinv.queueOk) he)
  · obtain ⟨x, n, rfl⟩ := fetch_frame.2 t hf
    exact hcons

end Sys2Proof.Machine
end

section
/-!
PROOF. The backing store (spec/20_memory.md): a read (O19), a write and what stays written (O18), and the write port of the
registers (O41).
-/
namespace Sys2Proof.Machine

open Sys2Proof

/-- A read outside the store stops by name (R54). -/
theorem memRead_outside {s : State} {i : Nat} (hi : s.params.capacity ≤ i) :
    memRead s i = .error (.noSuchCell i s.params.capacity) := if_neg (Nat.not_lt.mpr hi)

/-- A write outside the store stops by name (R54). -/
theorem memWrite_outside {s : State} {i : Nat} (hi : s.params.capacity ≤ i) (v : Byte) :
    memWrite s i v = .error (.noSuchCell i s.params.capacity) := if_neg (Nat.not_lt.mpr hi)

/-- Settles O19: the three cases of a read are the cell written, unwritten, and no cell. -/
theorem storageReadHasNoEffect : Obligations.StorageReadHasNoEffect := fun _ _ =>
  ⟨fun hi _ => memRead_written hi, fun hi hv => ⟨_, memRead_unwritten hi hv⟩,
    fun hi => ⟨memRead_outside hi, memWrite_outside hi⟩⟩

/-- A written cell stays written through a write (R53). -/
theorem Memory.isSome_read_write {m : Memory} {a : Nat} (h : (m.read a).isSome = true) (i : Nat) (v : Byte) :
    ((m.write i v).read a).isSome = true := by
  rw [Memory.read_write]
  split
  · rfl
  · exact h

/-- INGRESS leaves the store or writes its byte at the write cursor (R143, R146). -/
theorem execIngress_storage {s t : State} (h : execIngress s = .next t) :
    t.queue.storage = s.queue.storage ∨ ∃ v, t.queue.storage = s.queue.storage.write s.queue.wr v := by
  obtain ⟨-, ⟨-, rfl⟩ | ⟨-, u, hu, rfl⟩⟩ := execIngress_next h
  · exact .inl rfl
  · obtain ⟨a, x, n, -, -, rfl⟩ := ingressBody_ok hu
    dsimp only
    split
    · exact .inl rfl
    · exact .inr ⟨receivedByte a, rfl⟩

/-- An operation leaves the store or writes one cell of it: QINSERT and INGRESS alone write (R21, R51). -/
theorem exec_storage {i : Instr} {s t : State} (h : exec i s = .next t) :
    t.queue.storage = s.queue.storage ∨ ∃ v, t.queue.storage = s.queue.storage.write s.queue.wr v := by
  obtain ⟨hkeep, -⟩ := queueWritersAreTheNamedOnes i s t h
  cases i with
  | qinsert v =>
    obtain ⟨-, -, rfl⟩ := execQinsert_next h
    exact .inr ⟨v, rfl⟩
  | ingress => exact execIngress_storage h
  | qinit | qisfull | qisempty | qcount | qremove | qpeek | egress | housekeep | setline =>
    exact .inl (hkeep rfl (by simp))

/-- Settles O18: a write lists its cell and no other, and no operation does more to the store than one write. -/
theorem storageWriteChangesOneCell : Obligations.StorageWriteChangesOneCell := by
  refine ⟨fun s i v hi => ?_, fun i s t a h ha => ?_⟩
  · exact ⟨_, memWrite_inStore hi v, rfl, Memory.read_write_self _ i v, fun j hj => Memory.read_write_ne hj _ v,
      fun hwf => Memory.wf_write hwf i v⟩
  · obtain hsame | ⟨v, hwrite⟩ := exec_storage h
    · rwa [hsame]
    · rw [hwrite]
      exact Memory.isSome_read_write ha _ v

/-- A byte on the write port keeps its value (R110). -/
theorem byte_setWidth_toNat (v : Byte) : (v.setWidth 16).toNat = v.toNat :=
  BitVec.toNat_setWidth_of_le (by decide)

/-- Settles O41: register by register; an 8-bit value stands on the port with its upper bits 0. -/
theorem writePortNumbersAndData : Obligations.WritePortNumbersAndData := by
  refine ⟨fun v => ⟨rfl, byte_setWidth_toNat v⟩, fun v => ⟨rfl, rfl⟩, fun v => ⟨rfl, byte_setWidth_toNat v⟩, ?_⟩
  intro w
  cases w with
  | mode | divisor | enable => simp [RegWrite.number]

end Sys2Proof.Machine
end

section
/-!
PROOF. SETLINE commutes with the other operations (O48, R64, R210). Neither the trace so far, nor the LINECFG registers,
nor the last result is noticed by a queue or relay operation, so both orders do what the operation does from an empty trace.
-/
namespace Sys2Proof.Machine

open Sys2Proof

/-! ## The trace so far and the last result go unnoticed -/

/-- The state with events before those of its trace. -/
def State.precededBy (s : State) (old : List Event) : State := { s with trace := old ++ s.trace }

/-- Events before those of the trace go unnoticed. -/
theorem Unnoticed.precededBy (old : List Event) : Unnoticed (·.precededBy old) := by
  constructor
  case record => simp [State.precededBy, State.record]
  all_goals intros; rfl

/-! A change of the last result, which `Unnoticed` leaves out because an operation's own result hides it: every shared
operation and every body of the relay hands it on, and no operation shows it. -/

section

variable (s : State) (r : Option Result)

@[simp] theorem State.returns_withWork (w : Working) : (s.returns r).withWork w = (s.withWork w).returns r := rfl
@[simp] theorem isFull_returns : isFull (s.returns r) = isFull s := rfl
@[simp] theorem isEmpty_returns : isEmpty (s.returns r) = isEmpty s := rfl

theorem memRead_returns (i : Nat) : memRead (s.returns r) i = (memRead s i).map (Prod.map id (·.returns r)) := by
  unfold memRead
  change (if i < s.params.capacity then _ else _) = _
  split
  · rw [State.returns_queue]
    split <;> rfl
  · rfl

theorem memWrite_returns (i : Nat) (v : Byte) : memWrite (s.returns r) i v = (memWrite s i v).map (·.returns r) := by
  unfold memWrite
  change (if i < s.params.capacity then _ else _) = _
  split <;> rfl

theorem insertByte_returns (v : Byte) : insertByte (s.returns r) v = (insertByte s v).map (·.returns r) := by
  simp only [insertByte, isFull_returns, State.returns_queue, memWrite_returns]
  split
  · rfl
  · cases memWrite s s.queue.wr v <;> rfl

theorem removeByte_returns : removeByte (s.returns r) = (removeByte s).map (Prod.map id (·.returns r)) := by
  simp only [removeByte, isEmpty_returns, State.returns_queue, memRead_returns]
  split
  · rfl
  · cases memRead s s.queue.rd <;> rfl

theorem receiveByte_returns : receiveByte (s.returns r) = Prod.map id (·.returns r) (receiveByte s) := by
  simp only [receiveByte, State.returns_inputs]
  split <;> rfl

theorem isSendReady_returns : isSendReady (s.returns r) = Prod.map id (·.returns r) (isSendReady s) := by
  simp only [isSendReady, State.returns_inputs]
  split <;> rfl

theorem sendByte_returns (b : Byte) : sendByte (s.returns r) b = Prod.map id (·.returns r) (sendByte s b) := by
  simp only [sendByte, State.returns_inputs]
  split <;> rfl

theorem ingressBody_returns : ingressBody (s.returns r) = (ingressBody s).map (·.returns r) := by
  simp only [ingressBody, receiveByte_returns, Prod.map_fst, Prod.map_snd, id, State.returns_work,
    State.returns_withWork, insertByte_returns]
  split
  · rfl
  · exact map_map_comm (fun _ => by rfl) _

theorem sendOne_returns : sendOne (s.returns r) = (sendOne s).map (Prod.map id (·.returns r)) := by
  simp only [sendOne, peekByte, State.returns_queue, memRead_returns]
  cases memRead s s.queue.rd with
  | error f => rfl
  | ok a =>
    simp only [Except.map, Prod.map_fst, Prod.map_snd, id, State.returns_work, State.returns_withWork, sendByte_returns,
      removeByte_returns]
    split
    · cases removeByte _ <;> rfl
    · rfl

theorem sendLoop_returns (n : Nat) : sendLoop n (s.returns r) = (sendLoop n s).map (·.returns r) := by
  induction n generalizing s with
  | zero => rfl
  | succ n ih =>
    simp only [sendLoop, sendOne_returns]
    match sendOne s with
    | .error f => rfl
    | .ok (true, t) => exact ih t
    | .ok (false, t) => rfl

theorem egressBody_returns : egressBody (s.returns r) = (egressBody s).map (·.returns r) := by
  simp only [egressBody, State.returns_work, State.returns_queue, State.returns_withWork, isSendReady_returns, Prod.map_fst,
    Prod.map_snd, id]
  split
  · rw [sendLoop_returns]
    exact map_map_comm (fun _ => by rfl) _
  · rfl

/-- A completion that leaves a result of its own hides a change of the last one. -/
theorem complete_map_map {α : Type} {f : α → State} {g : α → α} (h : ∀ a, f (g a) = f a) (x : Except Fault α) :
    complete ((x.map g).map f) = complete (x.map f) := by
  cases x with
  | error e => rfl
  | ok a => exact congrArg Host.Outcome.next (h a)

/-- Every operation leaves a result of its own or none, and reads the last one nowhere (R86). -/
theorem exec_returns (i : Instr) : exec i (s.returns r) = exec i s := by
  cases i with
  | qinit | qisfull | qisempty | qcount | housekeep => rfl
  | qinsert v =>
    simp only [exec, execQinsert, insertByte_returns]
    exact complete_map_map (fun _ => by rfl) _
  | qremove =>
    simp only [exec, execQremove, removeByte_returns]
    exact complete_map_map (fun _ => by rfl) _
  | qpeek =>
    simp only [exec, execQpeek, peekByte, State.returns_queue, memRead_returns]
    exact complete_map_map (fun _ => by rfl) _
  | ingress =>
    simp only [exec, execIngress, ingressBody_returns, isFull_returns]
    rw [complete_map_map (fun _ => by rfl)]
    rfl
  | egress =>
    simp only [exec, execEgress, egressBody_returns]
    rw [complete_map_map (fun _ => by rfl)]
    rfl
  | setline =>
    have hparams : (setHandler (s.returns r) .reconfiguring).params = s.params := rfl
    have hparams' : (setHandler s .reconfiguring).params = s.params := rfl
    simp only [exec, execSetline, divisorValue, lineOperand, State.returns_inputs, hparams, hparams']
    cases divisorOf s.params.divisor Config.doubleSpeed s.inputs.le.baud.toNat <;> rfl

end

/-! ## SETLINE -/

/-- The registers SETLINE leaves (R177). -/
def lineAfter (p : Params) (le : LineEncoding) (d : Nat) : Line := ⟨modeOf p le, BitVec.ofNat 16 d, enRun p, .idle⟩

/-- The events SETLINE adds to the trace (R177). -/
def setlineEvents (p : Params) (le : LineEncoding) (d : Nat) : List Event :=
  (lineWrites p (BitVec.ofNat 16 d) (modeOf p le)).map Event.regWrite

/-- The state after SETLINE with the divisor `d` (R172). -/
def State.reconfigured (s : State) (d : Nat) : State := { s with
  line := lineAfter s.params s.inputs.le d
  trace := s.trace ++ setlineEvents s.params s.inputs.le d
  result := none }

theorem exec_setline (s : State) : exec .setline s = execSetline s := rfl

/-- SETLINE where the divisor has a value (R172, R179). -/
theorem execSetline_eq_reconfigured {s : State} {d : Nat}
    (hd : divisorOf s.params.divisor true s.inputs.le.baud.toNat = some d) :
    execSetline s = .next (s.reconfigured d) := by
  obtain ⟨d', n, hvalue, hs⟩ := execSetline_eq s
  have hvalue' : divisorValue s s.inputs.le.baud = (BitVec.ofNat 16 d, s) := by
    simp only [divisorValue, Config.doubleSpeed, hd]
  obtain ⟨rfl, hstate⟩ := Prod.mk.inj (hvalue'.symm.trans hvalue)
  obtain rfl : s.draws = n := congrArg State.draws hstate
  exact hs

/-! ## SETLINE before and after another operation -/

section

variable {s : State} {i : Instr} {d : Nat} (hi : i ≠ .setline)
  (hd : divisorOf s.params.divisor true s.inputs.le.baud.toNat = some d)

include hi

/-- An operation does what it does from an empty trace. -/
theorem exec_eq_of_noTrace : exec i s = mapNext (·.precededBy s.trace) (exec i { s with trace := [] }) := by
  have hs : s = ({ s with trace := [] } : State).precededBy s.trace := by simp [State.precededBy]
  exact (congrArg (exec i) hs).trans ((Unnoticed.precededBy s.trace).exec_comm _ hi)

include hd

/-- SETLINE, then the operation. -/
theorem execAll_setline_first : execAll [.setline, i] s =
    mapNext (fun t => (t.withLine (lineAfter s.params s.inputs.le d)).precededBy
      (s.trace ++ setlineEvents s.params s.inputs.le d)) (exec i { s with trace := [] }) := by
  have hs : s.reconfigured d = ((({ s with trace := [] } : State).withLine (lineAfter s.params s.inputs.le d)).precededBy
      (s.trace ++ setlineEvents s.params s.inputs.le d)).returns none := by
    simp [State.reconfigured, State.precededBy, State.withLine, State.returns]
  simp only [execAll, exec_setline, execSetline_eq_reconfigured hd, hs, exec_returns,
    (Unnoticed.precededBy _).exec_comm _ hi, (Unnoticed.withLine _).exec_comm _ hi]
  cases exec i { s with trace := [] } <;> rfl

/-- The operation, then SETLINE. -/
theorem execAll_setline_last : execAll [i, .setline] s =
    mapNext (fun t => { t with
      line := lineAfter s.params s.inputs.le d
      trace := s.trace ++ t.trace ++ setlineEvents s.params s.inputs.le d
      result := none }) (exec i { s with trace := [] }) := by
  simp only [execAll, exec_eq_of_noTrace (s := s) hi]
  cases ho : exec i { s with trace := [] } with
  | next t =>
    obtain ⟨hparams, -, -, -, -, -, -, -, -, hle⟩ := exec_frame ho
    have hdt : divisorOf (t.precededBy s.trace).params.divisor true (t.precededBy s.trace).inputs.le.baud.toNat =
        some d := by
      rw [← hd]
      simp only [State.precededBy, hparams, hle]
    simp only [mapNext, exec_setline, execSetline_eq_reconfigured hdt]
    simp only [State.reconfigured, State.precededBy, hparams, hle]
  | fault f => rfl
  | refused r => rfl

end

/-! ## The two slices of the trace (R64) -/

theorem lineSlice_append (a b : List Event) : lineSlice (a ++ b) = lineSlice a ++ lineSlice b :=
  List.filterMap_append

theorem usbSlice_append (a b : List Event) : usbSlice (a ++ b) = usbSlice a ++ usbSlice b :=
  List.filter_append ..

/-- SETLINE's events are register writes. -/
theorem usbSlice_setlineEvents (p : Params) (le : LineEncoding) (d : Nat) : usbSlice (setlineEvents p le d) = [] := rfl

/-- An event that is no register write is not in the transceiver's slice. -/
theorem lineSlice_append_of_write_eq_none (tr : List Event) {e : Event} (he : e.write = none) :
    lineSlice (tr ++ [e]) = lineSlice tr := by
  simp [lineSlice, he]

/-- EGRESS's loop writes no LINECFG register (R41). -/
theorem sendLoop_lineSlice {n : Nat} {s t : State} (h : sendLoop n s = .ok t) :
    lineSlice t.trace = lineSlice s.trace := by
  replace h := sendLoop_chain h
  induction h with
  | refl => rfl
  | tail _ hpass ih =>
    obtain ⟨go, hpass⟩ := hpass
    obtain ⟨v, st, w, n, -, -, -, -, -, rfl⟩ := sendOne_ok hpass
    exact (lineSlice_append_of_write_eq_none _ rfl).trans ih

/-- No queue or relay operation writes a LINECFG register: the transceiver's slice stays (R41). -/
theorem exec_lineSlice {i : Instr} {s t : State} (hi : i ≠ .setline) (h : exec i s = .next t) :
    lineSlice t.trace = lineSlice s.trace := by
  cases i with
  | qinit =>
    obtain ⟨-, rfl⟩ := execQinit_next h
    rfl
  | qisfull | qisempty | qcount => exact Host.Outcome.next.inj h ▸ rfl
  | qinsert v =>
    obtain ⟨-, -, rfl⟩ := execQinsert_next h
    rfl
  | qremove =>
    obtain ⟨-, -, v, n, -, rfl⟩ := execQremove_next h
    rfl
  | qpeek =>
    obtain ⟨-, v, n, -, rfl⟩ := execQpeek_next h
    rfl
  | ingress =>
    obtain ⟨-, ⟨-, rfl⟩ | ⟨-, u, hu, rfl⟩⟩ := execIngress_next h
    · rfl
    · obtain ⟨a, x, n, -, -, rfl⟩ := ingressBody_ok hu
      exact lineSlice_append_of_write_eq_none _ rfl
  | egress =>
    obtain ⟨ready, n, u, v, hprobe, -, -, hloop, htrace, -⟩ := execEgress_sendLoop h
    rw [htrace, sendLoop_lineSlice hloop, hprobe]
    exact lineSlice_append_of_write_eq_none _ rfl
  | housekeep =>
    obtain ⟨-, rfl⟩ := execHousekeep_next h
    exact lineSlice_append_of_write_eq_none _ rfl
  | setline => exact absurd rfl hi

/-- Settles O48: both orders do what the operation does from an empty trace; their traces differ in where SETLINE's writes
stand among events of the other slice. -/
theorem setlineCommutesWithTheRelay : Obligations.SetlineCommutesWithTheRelay := by
  intro s i d hi hd
  rw [execAll_setline_first hi hd, execAll_setline_last hi hd]
  cases ho : exec i { s with trace := [] } with
  | next c =>
    have hline : lineSlice c.trace = [] := exec_lineSlice hi ho
    refine ⟨⟨fun _ => ⟨_, rfl⟩, fun _ => ⟨_, rfl⟩⟩, fun t u ht hu => ?_⟩
    obtain rfl := Host.Outcome.next.inj ht
    obtain rfl := Host.Outcome.next.inj hu
    refine ⟨rfl, ?_, ?_⟩
    · simp only [State.precededBy, State.withLine_trace, lineSlice_append, hline, List.append_nil]
    · simp only [State.precededBy, State.withLine_trace, usbSlice_append, usbSlice_setlineEvents, List.append_nil]
  | fault f => simp [mapNext]
  | refused r => simp [mapNext]

end Sys2Proof.Machine
end

section
/-!
PROOF. The command word (spec/30_encoding.md): decoding and encoding are inverse (O1), the rows of the operation table
(O2), the reserved words (O3), QINSERT's operand (O4) and words written out (O5).
-/
namespace Sys2Proof

/-! ## The fields of a word (R81) -/

/-- A word is made of its three fields. -/
theorem commandWord_fields (w : Half) : commandWord (famField w) (fnField w) (imm8Field w) = w := by
  have hop : famField w ++ fnField w = w.extractLsb' 8 8 := BitVec.extractLsb'_append_extractLsb'_eq_extractLsb' rfl
  have hword : w.extractLsb' 8 8 ++ imm8Field w = w.extractLsb' 0 16 :=
    BitVec.extractLsb'_append_extractLsb'_eq_extractLsb' rfl
  rw [commandWord, hop, hword, BitVec.extractLsb'_eq_self]

@[simp] theorem imm8Field_commandWord (fam fn : BitVec 4) (v : Byte) : imm8Field (commandWord fam fn v) = v :=
  BitVec.extractLsb'_append_eq_right

@[simp] theorem fnField_commandWord (fam fn : BitVec 4) (v : Byte) : fnField (commandWord fam fn v) = fn := by
  rw [fnField, commandWord, BitVec.extractLsb'_append_eq_of_le (by decide)]
  exact BitVec.extractLsb'_append_eq_right

@[simp] theorem famField_commandWord (fam fn : BitVec 4) (v : Byte) : famField (commandWord fam fn v) = fam := by
  rw [famField, commandWord, BitVec.extractLsb'_append_eq_of_le (by decide)]
  exact BitVec.extractLsb'_append_eq_left

theorem famField_and (a b : Half) : famField (a &&& b) = famField a &&& famField b := BitVec.extractLsb'_and

theorem fnField_and (a b : Half) : fnField (a &&& b) = fnField a &&& fnField b := BitVec.extractLsb'_and

/-! ## Decoding answers the operation whose word it is (R83) -/

/-- A format `Z` operation is read from its own word only. -/
theorem decodeZ_ok {w : Half} {fam fn : BitVec 4} {i j : Instr} (h : decodeZ w i = .ok j)
    (hi : encode i = commandWord fam fn 0) (hfn : (fnField w).toNat = fn.toNat) :
    encode j = commandWord fam (fnField w) (imm8Field w) := by
  unfold decodeZ at h
  split at h
  · next himm =>
    obtain rfl := Except.ok.inj h
    rw [hi, himm, BitVec.eq_of_toNat_eq hfn]
  · cases h

/-- Family 0 answers the operation of its word. -/
theorem decodeQueue_ok {w : Half} {i : Instr} (h : decodeQueue w = .ok i) :
    encode i = commandWord 0 (fnField w) (imm8Field w) := by
  unfold decodeQueue at h
  split at h
  case h_5 hfn =>
    obtain rfl := Except.ok.inj h
    rw [BitVec.eq_of_toNat_eq (y := 4) hfn, encode]
  case h_8 => cases h
  all_goals exact decodeZ_ok h rfl ‹_›

/-- Family 1 answers the operation of its word. -/
theorem decodeRelay_ok {w : Half} {i : Instr} (h : decodeRelay w = .ok i) :
    encode i = commandWord 1 (fnField w) (imm8Field w) := by
  unfold decodeRelay at h
  split at h
  case h_4 => cases h
  all_goals exact decodeZ_ok h rfl ‹_›

/-- Family 2 answers the operation of its word. -/
theorem decodeLine_ok {w : Half} {i : Instr} (h : decodeLine w = .ok i) :
    encode i = commandWord 2 (fnField w) (imm8Field w) := by
  unfold decodeLine at h
  split at h
  case h_2 => cases h
  case h_1 hfn => exact decodeZ_ok h rfl hfn

/-- A word that decodes to an operation is that operation's word. -/
theorem encode_of_decode {w : Half} {i : Instr} (h : decode w = .ok i) : encode i = w := by
  rw [← commandWord_fields w]
  unfold decode at h
  split at h
  · next hfam => rw [decodeQueue_ok h, BitVec.eq_of_toNat_eq (y := 0) hfam]
  · next hfam => rw [decodeRelay_ok h, BitVec.eq_of_toNat_eq (y := 1) hfam]
  · next hfam => rw [decodeLine_ok h, BitVec.eq_of_toNat_eq (y := 2) hfam]
  · cases h

/-- Every operation decodes from its word. -/
theorem decode_encode (i : Instr) : decode (encode i) = .ok i := by
  cases i with
  | qinsert v => simp [encode, decode, decodeQueue]
  | qinit | qisfull | qisempty | qcount | qremove | qpeek | ingress | egress | housekeep | setline => rfl

/-- Every operation is well formed (R84). -/
theorem Instr.wellFormed_eq_true (i : Instr) : i.wellFormed = true := by cases i <;> rfl

/-- Settles O1: a decoded word is rebuilt from its fields, and each operation's word has the fields the decoder reads. -/
theorem decodeInvertsEncode : Obligations.DecodeInvertsEncode :=
  ⟨fun i _ => decode_encode i, fun _ i h => ⟨i.wellFormed_eq_true, encode_of_decode h⟩⟩

/-! ## The rows of the table (R82) -/

/-- An operation's word selects one row, its own. -/
theorem rowsOf_encode (i : Instr) : (rowsOf (encode i)).map OpRow.mnemonic = [i.mnemonic] := by
  cases i with
  | qinit => exact Laws.CommandWord.qinit
  | qisfull => exact Laws.CommandWord.qisfull
  | qisempty => exact Laws.CommandWord.qisempty
  | qcount => exact Laws.CommandWord.qcount
  | qinsert v => exact Laws.CommandWord.qinsert v
  | qremove => exact Laws.CommandWord.qremove
  | qpeek => exact Laws.CommandWord.qpeek
  | ingress => exact Laws.CommandWord.ingress
  | egress => exact Laws.CommandWord.egress
  | housekeep => exact Laws.CommandWord.housekeep
  | setline => exact Laws.CommandWord.setline

/-- The operations of format `Z` (R81). -/
def formatZ : List Instr :=
  [.qinit, .qisfull, .qisempty, .qcount, .qremove, .qpeek, .ingress, .egress, .housekeep, .setline]

/-- A row asks for the whole word of a format `Z` operation, or, QINSERT's, for the upper byte alone. -/
theorem opRows_cases : ∀ r ∈ opRows, (r.mask = BitVec.allOnes 16 ∧ ∃ i ∈ formatZ, encode i = r.bits) ∨
    (r.mask = 0xFF00 ∧ r.bits = 0x0400) := by
  decide

/-- A word with QINSERT's upper byte is the word of a QINSERT. -/
theorem encode_qinsert_of_and_eq {w : Half} (h : w &&& 0xFF00 = 0x0400) : encode (.qinsert (imm8Field w)) = w := by
  have hfam : famField w = 0 := by
    have hmask := (famField_and w 0xFF00).symm.trans (congrArg famField h)
    exact BitVec.and_allOnes.symm.trans hmask
  have hfn : fnField w = 4 := by
    have hmask := (fnField_and w 0xFF00).symm.trans (congrArg fnField h)
    exact BitVec.and_allOnes.symm.trans hmask
  rw [encode, ← hfam, ← hfn, commandWord_fields]

/-- A word that selects a row is the word of an operation. -/
theorem exists_encode_of_mem_rowsOf {w : Half} {r : OpRow} (h : r ∈ rowsOf w) : ∃ i, encode i = w := by
  obtain ⟨hr, hsel⟩ := List.mem_filter.mp h
  have hw : w &&& r.mask = r.bits := beq_iff_eq.mp hsel
  obtain ⟨hmask, i, -, hi⟩ | ⟨hmask, hbits⟩ := opRows_cases r hr
  · rw [hmask, BitVec.and_allOnes] at hw
    exact ⟨i, hi.trans hw.symm⟩
  · rw [hmask, hbits] at hw
    exact ⟨_, encode_qinsert_of_and_eq hw⟩

/-- A word the decoder refuses selects no row. -/
theorem rowsOf_of_decode_error {w : Half} {e : Reserved} (h : decode w = .error e) : rowsOf w = [] := by
  refine List.eq_nil_iff_forall_not_mem.mpr fun r hr => ?_
  obtain ⟨i, rfl⟩ := exists_encode_of_mem_rowsOf hr
  cases (decode_encode i).symm.trans h

/-- Settles O2: a word that decodes is an operation's word, which selects that operation's row alone; any other selects
none. -/
theorem tableRowsDecideTheOperation : Obligations.TableRowsDecideTheOperation := by
  intro w
  cases hw : decode w with
  | ok i =>
    obtain rfl := encode_of_decode hw
    have hlen : (rowsOf (encode i)).length = 1 := by simpa using congrArg List.length (rowsOf_encode i)
    refine ⟨hlen.le, ⟨fun hnil => ?_, nofun⟩, fun j hj => ?_⟩
    · simp [hnil] at hlen
    · exact Except.ok.inj hj ▸ rowsOf_encode i
  | error e =>
    have hnil := rowsOf_of_decode_error hw
    exact ⟨by simp [hnil], ⟨fun _ => ⟨e, rfl⟩, fun _ => hnil⟩, nofun⟩

/-! ## The reserved words (R87) -/

/-! The words each family's decoder refuses: those with another `fn`, and those of format `Z` with an operand. -/

theorem decodeZ_error {w : Half} {i : Instr} : (∃ r, decodeZ w i = .error r) ↔ imm8Field w ≠ 0 := by
  unfold decodeZ
  split
  · next himm => simp [himm]
  · next himm => exact ⟨fun _ => himm, fun _ => ⟨_, rfl⟩⟩

theorem decodeQueue_error {w : Half} :
    (∃ r, decodeQueue w = .error r) ↔ 7 ≤ (fnField w).toNat ∨ (imm8Field w ≠ 0 ∧ (fnField w).toNat ≠ 4) := by
  unfold decodeQueue
  split
  case h_5 hfn => simp [hfn]
  case h_8 =>
    simp only [Except.error.injEq, exists_eq', true_iff, imp_false] at *
    omega
  all_goals simp [decodeZ_error, *]

theorem decodeRelay_error {w : Half} :
    (∃ r, decodeRelay w = .error r) ↔ 3 ≤ (fnField w).toNat ∨ imm8Field w ≠ 0 := by
  unfold decodeRelay
  split
  case h_4 =>
    simp only [Except.error.injEq, exists_eq', true_iff, imp_false] at *
    omega
  all_goals simp [decodeZ_error, *]

theorem decodeLine_error {w : Half} :
    (∃ r, decodeLine w = .error r) ↔ 1 ≤ (fnField w).toNat ∨ imm8Field w ≠ 0 := by
  unfold decodeLine
  split
  case h_2 =>
    simp only [Except.error.injEq, exists_eq', true_iff, imp_false] at *
    omega
  case h_1 hfn => simp [decodeZ_error, hfn]

/-- Settles O3: family by family, the words its decoder refuses are those the list names for it. -/
theorem reservedWordsAreTheListedOnes : Obligations.ReservedWordsAreTheListedOnes := by
  intro w
  unfold decode
  split
  · next hfam => simp [decodeQueue_error, hfam]
  · next hfam => simp [decodeRelay_error, hfam]
  · next hfam => simp [decodeLine_error, hfam]
  · simp only [Except.error.injEq, exists_eq', true_iff, imp_false] at *
    omega

/-! ## QINSERT's operand (R84) and words written out -/

/-- QINSERT's word is its opcode with the byte below it. -/
theorem encode_qinsert (v : Byte) : encode (.qinsert v) = 0x0400 ||| v.setWidth 16 :=
  BitVec.append_def ..

/-- Settles O4: a word that decodes to a QINSERT is its word, whose low byte is the operand. -/
theorem insertOperandIsTheLowByte : Obligations.InsertOperandIsTheLowByte := by
  refine ⟨fun w v h => ?_, fun v => ?_⟩
  · rw [← encode_of_decode h]
    exact (imm8Field_commandWord 0 4 v).symm
  · rw [← encode_qinsert, decode_encode]

/-- Settles O5: each word is decoded. -/
theorem tableWordsDecode : Obligations.TableWordsDecode := by
  unfold Obligations.TableWordsDecode
  decide

end Sys2Proof
end

section
/-!
PROOF. What is presented to the core (spec/30_encoding.md R80, R111): a command word (O7) and the QUEUE pins (O8); then
the phase codes (O25) and the MODE values under the default masks (O34).
-/
namespace Sys2Proof.Machine

open Sys2Proof

section

variable {s : State} (hg : Good s)

include hg

/-- A step from a good state runs the operation fetched. -/
theorem step_of_fetch_run {i : Instr} {t : State} (hf : fetch s = .run i t) : step s = exec i t := by
  rw [step_of_good hg, hf]

/-- A step from a good state with no operation fetched. -/
theorem step_of_fetch_idle {t : State} (hf : fetch s = .idle t) : step s = .next t := by
  rw [step_of_good hg, hf]

/-- A step from a good state answers the refusal fetched. -/
theorem step_of_fetch_refuse {r : Refusal} (hf : fetch s = .refuse r) : step s = .refused r := by
  rw [step_of_good hg, hf]
  rfl

end

/-- The next command presented is what is fetched. -/
theorem fetch_of_program {s : State} {c : Command} {rest : List Command} (h : s.inputs.program = c :: rest) :
    fetch s = fetchCommand s c rest := by
  rw [fetch, h]

/-- A command word that decodes is fetched as its operation, with the record beside it on the `LE` port (R80, R85). -/
theorem fetchCommand_word {s : State} {w : Half} {le : Option LineEncoding} {rest : List Command} {i : Instr}
    (h : decode w = .ok i) : fetchCommand s (.word w le) rest = .run i (present s rest le) := by
  simp only [fetchCommand, h]

/-- Settles O7: the word is fetched as its operation, and the step runs what is fetched. -/
theorem stepRunsTheDecodedOperation : Obligations.StepRunsTheDecodedOperation :=
  fun _ _ _ _ _ hg hprog hdec => step_of_fetch_run hg ((fetch_of_program hprog).trans (fetchCommand_word hdec))

/-- Settles O8: in each of the four cases of the pins the step does what is fetched. -/
theorem pinsPushAndPop : Obligations.PinsPushAndPop := by
  intro s push pop rest hg hprog
  have hfetch := fetch_of_program hprog
  cases push with
  | none =>
    cases pop with
    | false => exact ⟨step_of_fetch_idle hg hfetch, nofun⟩
    | true => exact ⟨step_of_fetch_run hg hfetch, nofun⟩
  | some v =>
    cases pop with
    | false => exact ⟨step_of_fetch_run hg hfetch, nofun⟩
    | true =>
      have hstep := step_of_fetch_refuse hg hfetch
      exact ⟨hstep, fun _ _ => congrArg (stopState s) hstep⟩

/-- Settles O25: the phase's word has the code as its `fn`, phase by phase. -/
theorem phaseCodesAndSuccessors : Obligations.PhaseCodesAndSuccessors := by
  refine ⟨rfl, rfl, rfl, fun p => ?_, rfl, rfl, rfl⟩
  cases p with
  | ingress | egress | housekeep => exact ⟨by decide, rfl⟩

/-- Settles O34: the masks are the defaults, and each of the 24 records is a closed instance of `modeOf`. -/
theorem defaultModeValues : Obligations.DefaultModeValues := by
  unfold Obligations.DefaultModeValues
  decide

end Sys2Proof.Machine
end

section
/-!
PROOF. The queue operations (spec/40_queue_ops.md R120 to R126): each in one equation (O12, O13, O14, O15, O16), and
what one does to the content (O22).
-/
namespace Sys2Proof.Machine

open Sys2Proof

/-! ## QINIT and the queries -/

/-- QINIT where it has not run (R120). -/
theorem exec_qinit_of_not_inited {s : State} (h : s.book.inited = false) :
    exec .qinit s = .next { s with
      queue := { s.queue with rd := 0, wr := 0, count := 0 }
      book := { s.book with inited := true }
      result := none } := if_neg (by simp [h])

/-- QINIT where it has run (R120, R207). -/
theorem exec_qinit_of_inited {s : State} (h : s.book.inited = true) : exec .qinit s = .refused .reinitRefused :=
  if_pos h

/-- Settles O12: the test of `inited` has these two outcomes, and reset is the first of them from the state before. -/
theorem initRunsOnce : Obligations.InitRunsOnce := by
  refine ⟨fun s h => ⟨_, exec_qinit_of_not_inited h, rfl, rfl, fun hcap => ?_⟩, fun s h => ?_, fun p => rfl⟩
  · exact beq_eq_false_iff_ne.mpr (Nat.ne_of_lt hcap)
  · rw [exec_qinit_of_inited h]
    exact ⟨rfl, rfl⟩

/-- Settles O13: each query is its answer; `count` is not 0 and a capacity of 1 or more at once. -/
theorem queriesAnswerFromCount : Obligations.QueriesAnswerFromCount := by
  refine fun s => ⟨rfl, rfl, rfl, fun hcap => ?_⟩
  rintro ⟨hfull, hempty⟩
  rw [isFull_eq] at hfull
  rw [isEmpty_eq] at hempty
  omega

/-! ## QINSERT -/

/-- QINSERT with room (R124). -/
theorem exec_qinsert_of_room {s : State} (hc : s.queue.count ≠ s.params.capacity)
    (hw : s.queue.wr < s.params.capacity) (v : Byte) :
    exec (.qinsert v) s = .next { s with queue := s.queue.inserted s.params.capacity v, result := none } := by
  simp only [exec, execQinsert, insertByte_next hc hw]
  rfl

/-- QINSERT on a full queue (R124, R204). -/
theorem exec_qinsert_of_full {s : State} (hc : s.queue.count = s.params.capacity) (v : Byte) :
    exec (.qinsert v) s = .fault (.queueOverflow v s.queue.rd s.queue.wr s.queue.count) := by
  simp only [exec, execQinsert, insertByte, if_pos ((isFull_eq s).mpr hc)]
  rfl

/-- Settles O14: the store after the insert is the store with one write. -/
theorem insertStoresAtWriteCursor : Obligations.InsertStoresAtWriteCursor := by
  intro s v hc hw
  exact ⟨_, exec_qinsert_of_room (Nat.ne_of_lt hc) hw v, rfl, rfl, rfl, rfl, Memory.read_write_self _ _ v,
    fun a ha => Memory.read_write_ne ha _ v, rfl, isFull_eq _⟩

/-! ## QREMOVE and QPEEK -/

/-- A read of a cell of the store answers (R52). -/
theorem memRead_answers {s : State} {i : Nat} (hi : i < s.params.capacity) : ∃ v u, memRead s i = .ok (v, u) := by
  cases hv : s.queue.storage.read i with
  | some v => exact ⟨_, _, memRead_written hi hv⟩
  | none => exact ⟨_, _, memRead_unwritten hi hv⟩

/-- QREMOVE on a non-empty queue, the head written or not (R125, R52). -/
theorem exec_qremove_of_nonempty {s : State} (hc : s.queue.count ≠ 0) (hr : s.queue.rd < s.params.capacity) :
    ∃ v n, (∀ u, s.queue.storage.read s.queue.rd = some u → v = u ∧ n = s.draws) ∧
      exec .qremove s = .next { s with
        queue := s.queue.removed s.params.capacity
        result := some (.byte v)
        draws := n } := by
  obtain ⟨t, ht⟩ : ∃ t, execQremove s = .next t := by
    obtain ⟨v, u, hread⟩ := memRead_answers hr
    have hne : ¬ isEmpty s = true := mt (isEmpty_eq s).mp hc
    simp only [execQremove, removeByte, if_neg hne, hread]
    exact ⟨_, rfl⟩
  obtain ⟨-, -, v, n, hv, rfl⟩ := execQremove_next ht
  exact ⟨v, n, hv, ht⟩

/-- Settles O15: one fewer than a `count` within the capacity is below it. -/
theorem removeTakesTheHead : Obligations.RemoveTakesTheHead := by
  intro s hc hle hr
  obtain ⟨v, n, hv, hexec⟩ := exec_qremove_of_nonempty hc hr
  refine ⟨_, v, hexec, rfl, hv, ?_, ?_⟩
  · simp only [isFull, Queue.removed, beq_eq_false_iff_ne]
    omega
  · simp only [isEmpty_eq, Queue.removed]
    omega

/-- QPEEK on a written head (R126). -/
theorem exec_qpeek_of_written {s : State} {v : Byte} (hr : s.queue.rd < s.params.capacity)
    (hv : s.queue.storage.read s.queue.rd = some v) :
    exec .qpeek s = .next { s with result := some (.byte v) } := by
  simp only [exec, execQpeek, peekByte, memRead_written hr hv]
  rfl

/-- QPEEK on an unwritten head (R126, R52). -/
theorem exec_qpeek_of_unwritten {s : State} (hr : s.queue.rd < s.params.capacity)
    (hv : s.queue.storage.read s.queue.rd = none) :
    exec .qpeek s = .next { s with result := some (.byte (Config.freeCell s.draws)), draws := s.draws + 1 } := by
  simp only [exec, execQpeek, peekByte, memRead_unwritten hr hv]
  rfl

/-- Settles O16: the head is written or not. -/
theorem peekReadsWithoutRemoving : Obligations.PeekReadsWithoutRemoving := fun _ hr =>
  ⟨fun _ hv => exec_qpeek_of_written hr hv, fun hv => ⟨_, exec_qpeek_of_unwritten hr hv⟩⟩

/-! ## The content (R127) -/

/-- The content of a non-empty queue is the byte at the read cursor, then what a remove leaves (R27, R125). -/
theorem content_eq_head_cons {s : State} (hq : QueueInv s) (hc : s.queue.count ≠ 0) : ∃ v,
    s.queue.storage.read s.queue.rd = some v ∧
    s.content = some v :: (s.withQueue (s.queue.removed s.params.capacity)).content := by
  obtain ⟨v, hv⟩ := hq.head hc
  refine ⟨v, hv, ?_⟩
  rw [content_removed hc, Nat.mod_eq_of_lt hq.rdInStore, hv]

/-- An operation that leaves QUEUE leaves the content (R27). -/
theorem exec_content_eq {i : Instr} {s t : State}
    (hi : i = .qisfull ∨ i = .qisempty ∨ i = .qcount ∨ i = .qpeek ∨ i = .housekeep ∨ i = .setline)
    (h : exec i s = .next t) : t.content = s.content := by
  obtain ⟨hparams, -⟩ := exec_frame h
  exact content_congr (exec_queue_eq hi h) hparams

/-- Settles O22: an insert appends, a remove takes the head that a peek shows, and what leaves QUEUE leaves the
content. -/
theorem queueOperationsActOnTheContent : Obligations.QueueOperationsActOnTheContent := by
  refine fun s hq => ⟨fun v hc => ?_, fun hc => ?_, fun hc => ?_, fun i t hi h => ?_⟩
  · exact ⟨_, exec_qinsert_of_room (Nat.ne_of_lt hc) hq.wrInStore v, content_inserted hq.cursorRelation hc v⟩
  · obtain ⟨v, n, hv, hexec⟩ := exec_qremove_of_nonempty hc hq.rdInStore
    obtain ⟨b, hb, hcontent⟩ := content_eq_head_cons hq hc
    obtain ⟨rfl, -⟩ := hv b hb
    exact ⟨_, v, hexec, rfl, hcontent⟩
  · obtain ⟨v, hv, hcontent⟩ := content_eq_head_cons hq hc
    refine ⟨_, v, exec_qpeek_of_written hq.rdInStore hv, rfl, ?_, rfl, ?_⟩
    · rw [hcontent, List.head?_cons]
    · exact exec_qpeek_of_written (by exact hq.rdInStore) (by exact hv)
  · exact exec_content_eq (by tauto) h

end Sys2Proof.Machine
end

section
/-!
PROOF. Runs of operations (spec/40_queue_ops.md R127 to R129): first in, first out (O21), `count` (O23), the capacity
(O24). Each is an induction on the run from what one operation does.
-/
namespace Sys2Proof.Machine

open Sys2Proof

/-! ## First in, first out (R127) -/

/-- The byte an operation removes, then what it leaves queued, are what was queued, then the byte it inserts. -/
theorem exec_firstInFirstOut {i : Instr} {s t : State} (hop : i.isQueueOp = true) (hi : i ≠ .qinit) (hq : QueueInv s)
    (h : exec i s = .next t) :
    (removedByte i t.result).toList.map some ++ t.content = s.content ++ i.inserted.toList.map some := by
  cases i with
  | qinit => exact absurd rfl hi
  | qinsert v =>
    obtain ⟨hc, -, rfl⟩ := execQinsert_next h
    exact content_inserted hq.cursorRelation (Nat.lt_of_le_of_ne hq.countInRange hc) v
  | qremove =>
    obtain ⟨hc, -, v, n, hv, rfl⟩ := execQremove_next h
    obtain ⟨b, hb, hcontent⟩ := content_eq_head_cons hq hc
    obtain ⟨rfl, -⟩ := hv b hb
    exact hcontent.symm.trans (List.append_nil _).symm
  | qisfull | qisempty | qcount | qpeek => simp [removedByte, Instr.inserted, exec_content_eq (by simp) h]
  | ingress | egress | housekeep | setline => cases hop

theorem insertedBytes_cons (i : Instr) (is : List Instr) :
    insertedBytes (i :: is) = i.inserted.toList ++ insertedBytes is := by
  rw [insertedBytes, List.filterMap_cons]
  cases i.inserted <;> rfl

/-- A run that completes is its first operation, then the rest from there. -/
theorem execRemoved_cons {i : Instr} {is : List Instr} {s t : State} {out : List Byte}
    (h : execRemoved (i :: is) s = (out, .next t)) : ∃ u rest,
    exec i s = .next u ∧ execRemoved is u = (rest, .next t) ∧ out = (removedByte i u.result).toList ++ rest := by
  unfold execRemoved at h
  split at h
  · rename_i u hu
    obtain ⟨hout, ht⟩ := Prod.mk.inj h
    exact ⟨u, _, hu, Prod.ext rfl ht, hout.symm⟩
  · cases h
  · cases h

/-- Settles O21, by induction on the run: each operation is first in, first out and keeps the queue's invariants. -/
theorem queueIsFirstInFirstOut : Obligations.QueueIsFirstInFirstOut := by
  intro is
  induction is with
  | nil =>
    intro s t out _ _ h
    obtain ⟨rfl, ht⟩ := Prod.mk.inj h
    obtain rfl := Host.Outcome.next.inj ht
    exact (List.append_nil _).symm
  | cons i is ih =>
    intro s t out hops hq h
    obtain ⟨u, rest, hu, hrest, rfl⟩ := execRemoved_cons h
    obtain ⟨⟨hop, hi⟩, hops⟩ := List.forall_mem_cons.mp hops
    have hfirst := exec_firstInFirstOut hop hi hq hu
    have hlater := ih u t rest hops (exec_keeps_queueInv hq hu) hrest
    rw [insertedBytes_cons, List.map_append, List.map_append, List.append_assoc, hlater, ← List.append_assoc, hfirst,
      List.append_assoc]

/-! ## `count` along a run (R128) -/

/-- A run that completes is its first operation, then the rest from there. -/
theorem execAll_cons {i : Instr} {is : List Instr} {s t : State} (h : execAll (i :: is) s = .next t) :
    ∃ u, exec i s = .next u ∧ execAll is u = .next t := by
  unfold execAll at h
  split at h
  · rename_i u hu
    exact ⟨u, hu, h⟩
  · cases h
  · cases h

/-- From `s` to `t`, by the operations `is`, the trace grew, and `count` rose by the inserts and fell by the removes:
the QINSERTs and QREMOVEs of `is`, and those an INGRESS or EGRESS shows as a byte received or sent. -/
def Tallied (is : List Instr) (s t : State) : Prop := ∃ new, t.trace = s.trace ++ new ∧
  s.queue.count + is.countP (fun i => i.inserted.isSome) + (receivedBytes new).length =
    t.queue.count + is.countP (fun i => i == .qremove) + (sentBytes new).length

theorem Tallied.trans {is js : List Instr} {s u t : State} (hsu : Tallied is s u) (hut : Tallied js u t) :
    Tallied (is ++ js) s t := by
  obtain ⟨new, htrace, hcount⟩ := hsu
  obtain ⟨new', htrace', hcount'⟩ := hut
  refine ⟨new ++ new', by rw [htrace', htrace, List.append_assoc], ?_⟩
  simp only [List.countP_append, receivedBytes_append, sentBytes_append, List.length_append]
  omega

/-- An operation that neither inserts nor removes, with no byte received or sent, leaves `count`. -/
theorem Tallied.of_quiet {i : Instr} {s t : State} {new : List Event} (hins : i.inserted.isSome = false)
    (hrem : (i == .qremove) = false) (htrace : t.trace = s.trace ++ new) (hreceived : receivedBytes new = [])
    (hsent : sentBytes new = []) (hcount : t.queue.count = s.queue.count) : Tallied [i] s t :=
  ⟨new, htrace, by simp [hins, hrem, hreceived, hsent, hcount]⟩

/-- INGRESS counts the byte it receives (R143, R146). -/
theorem execIngress_tallied {s t : State} (h : execIngress s = .next t) : Tallied [.ingress] s t := by
  obtain ⟨-, ⟨-, rfl⟩ | ⟨-, u, hu, rfl⟩⟩ := execIngress_next h
  · exact .of_quiet rfl rfl (List.append_nil _).symm rfl rfl rfl
  · obtain ⟨a, x, n, -, -, rfl⟩ := ingressBody_ok hu
    refine ⟨[.receiveByte a], rfl, ?_⟩
    cases hs : isSentinel a with
    | true => simp [receivedBytes, sentBytes, Event.received, Event.sent, Instr.inserted, hs]
    | false => simp [receivedBytes, sentBytes, Event.received, Event.sent, Instr.inserted, Queue.inserted, hs]

/-- EGRESS takes from `count` the bytes it sends (R147, R151). -/
theorem execEgress_tallied {s t : State} (h : execEgress s = .next t) : Tallied [.egress] s t := by
  obtain ⟨ready, n, u, v, hprobe, hqueue, -, hloop, htrace, hqueue', -⟩ := execEgress_sendLoop h
  obtain ⟨new, hnew, hreceived, hcount⟩ := sendLoop_count hloop
  refine ⟨.isSendReady ready :: new, by rw [htrace, hnew, hprobe, ← List.append_cons], ?_⟩
  have hreceived' : receivedBytes (.isSendReady ready :: new) = [] := hreceived
  have hsent' : sentBytes (.isSendReady ready :: new) = sentBytes new := rfl
  rw [hreceived', hsent', hqueue', ← hqueue, hcount]
  rfl

/-- Every operation after QINIT is counted (R128). -/
theorem exec_tallied {i : Instr} {s t : State} (hinited : s.book.inited = true) (h : exec i s = .next t) :
    Tallied [i] s t := by
  cases i with
  | qinit =>
    rw [exec_qinit_of_inited hinited] at h
    cases h
  | qisfull | qisempty | qcount =>
    exact Host.Outcome.next.inj h ▸ .of_quiet rfl rfl (List.append_nil _).symm rfl rfl rfl
  | qinsert v =>
    obtain ⟨-, -, rfl⟩ := execQinsert_next h
    exact ⟨[], (List.append_nil _).symm, rfl⟩
  | qremove =>
    obtain ⟨hc, -, v, n, -, rfl⟩ := execQremove_next h
    exact ⟨[], (List.append_nil _).symm, (Nat.sub_one_add_one hc).symm⟩
  | qpeek =>
    obtain ⟨-, v, n, -, rfl⟩ := execQpeek_next h
    exact .of_quiet rfl rfl (List.append_nil _).symm rfl rfl rfl
  | ingress => exact execIngress_tallied h
  | egress => exact execEgress_tallied h
  | housekeep =>
    obtain ⟨-, rfl⟩ := execHousekeep_next h
    exact .of_quiet (new := [.periodicTask]) rfl rfl rfl rfl rfl rfl
  | setline =>
    obtain ⟨d, n, -, hs⟩ := execSetline_eq s
    obtain rfl := Host.Outcome.next.inj (hs.symm.trans h)
    exact .of_quiet rfl rfl rfl rfl rfl rfl

/-- INGRESS inserts into a queue with room only (R143, R145). -/
theorem execIngress_count_le {s t : State} (hle : s.queue.count ≤ s.params.capacity) (h : execIngress s = .next t) :
    t.queue.count ≤ t.params.capacity := by
  obtain ⟨-, ⟨-, rfl⟩ | ⟨hc, u, hu, rfl⟩⟩ := execIngress_next h
  · exact hle
  · obtain ⟨a, x, n, -, -, rfl⟩ := ingressBody_ok hu
    dsimp only
    split
    · exact hle
    · exact Nat.lt_of_le_of_ne hle hc

/-- No operation takes `count` beyond the capacity, whatever the cursors and the store (R25, R128). -/
theorem exec_count_le {i : Instr} {s t : State} (hle : s.queue.count ≤ s.params.capacity) (h : exec i s = .next t) :
    t.queue.count ≤ t.params.capacity := by
  obtain ⟨hparams, -⟩ := exec_frame h
  cases i with
  | qinit =>
    obtain ⟨-, rfl⟩ := execQinit_next h
    exact Nat.zero_le _
  | qinsert v =>
    obtain ⟨hc, -, rfl⟩ := execQinsert_next h
    exact Nat.lt_of_le_of_ne hle hc
  | qremove =>
    obtain ⟨-, -, v, n, -, rfl⟩ := execQremove_next h
    exact (Nat.sub_le _ _).trans hle
  | ingress => exact execIngress_count_le hle h
  | egress =>
    obtain ⟨ready, n, u, v, -, hqueue, -, hloop, -, hqueue', -⟩ := execEgress_sendLoop h
    obtain ⟨new, -, -, hcount⟩ := sendLoop_count hloop
    rw [hqueue] at hcount
    rw [hqueue', hparams]
    omega
  | qisfull | qisempty | qcount | qpeek | housekeep | setline => rwa [exec_queue_eq (by simp) h, hparams]

/-- A run after QINIT is counted, and stays within the capacity (R128). -/
theorem execAll_tallied {is : List Instr} {s t : State} (hinited : s.book.inited = true)
    (hle : s.queue.count ≤ s.params.capacity) (h : execAll is s = .next t) :
    Tallied is s t ∧ t.queue.count ≤ t.params.capacity := by
  induction is generalizing s with
  | nil =>
    obtain rfl := Host.Outcome.next.inj h
    exact ⟨⟨[], (List.append_nil _).symm, rfl⟩, hle⟩
  | cons i is ih =>
    obtain ⟨u, hu, hrest⟩ := execAll_cons h
    obtain ⟨-, -, -, hkeeps, -⟩ := exec_frame hu
    obtain ⟨hlater, hle'⟩ := ih (hkeeps hinited) (exec_count_le hle hu) hrest
    exact ⟨(exec_tallied hinited hu).trans hlater, hle'⟩

/-- Settles O23: QINIT leaves `count` 0, from which the run is counted. -/
theorem countIsInsertsLessRemoves : Obligations.CountIsInsertsLessRemoves := by
  intro is s0 s t hinit h
  obtain ⟨-, rfl⟩ := execQinit_next hinit
  obtain ⟨⟨new, htrace, hcount⟩, hle⟩ := execAll_tallied rfl (Nat.zero_le _) h
  exact ⟨new, htrace, by rwa [Nat.zero_add] at hcount, hle⟩

/-! ## The capacity (R129) -/

/-- As many inserts as there is room for complete, and take the write cursor and `count` on by their number (R124). -/
theorem execAll_inserts {s : State} {vs : List Byte} (hw : s.queue.wr < s.params.capacity)
    (hroom : s.queue.count + vs.length ≤ s.params.capacity) : ∃ t,
    execAll (vs.map Instr.qinsert) s = .next t ∧ t.params = s.params ∧ t.queue.rd = s.queue.rd ∧
    t.queue.wr = (s.queue.wr + vs.length) % s.params.capacity ∧ t.queue.count = s.queue.count + vs.length := by
  induction vs generalizing s with
  | nil => exact ⟨s, rfl, rfl, rfl, (Nat.mod_eq_of_lt hw).symm, rfl⟩
  | cons v vs ih =>
    rw [List.length_cons] at hroom
    have hexec := exec_qinsert_of_room (s := s) (by omega) hw v
    obtain ⟨t, ht, hparams, hrd, hwr, hcount⟩ :=
      ih (s := { s with queue := s.queue.inserted s.params.capacity v, result := none })
        (Nat.mod_lt _ (Nat.zero_lt_of_lt hw)) (by simp only [Queue.inserted]; omega)
    refine ⟨t, ?_, hparams, hrd, hwr.trans (advanceCursor_add ..), hcount.trans (Nat.succ_add_eq_add_succ ..)⟩
    rw [List.map_cons, execAll, hexec]
    exact ht

/-- Settles O24: from QINIT's cursors and `count` of 0, N inserts take the write cursor round to 0 and `count` to N. -/
theorem capacityIsExactlyN : Obligations.CapacityIsExactlyN := by
  intro s0 s vs hcap hinit hlen
  obtain ⟨-, hs⟩ := execQinit_next hinit
  have hparams0 : s.params = s0.params := hs ▸ rfl
  have hqueue0 : s.queue = ⟨s0.queue.storage, 0, 0, 0⟩ := hs ▸ rfl
  obtain ⟨t, ht, hparams, hrd, hwr, hcount⟩ := execAll_inserts (s := s) (vs := vs)
    (by rwa [hqueue0, hparams0]) (by rwa [hqueue0, hparams0, Nat.zero_add])
  simp only [hqueue0, hparams0, Nat.zero_add] at hparams hrd hwr hcount
  refine ⟨t, ht, ?_, fun hfull => ?_⟩
  · obtain ⟨hisfull, -⟩ := queriesAnswerFromCount t
    rw [hisfull, hcount, hparams]
  · have hwr0 : t.queue.wr = 0 := by rw [hwr, hfull, Nat.mod_self]
    refine ⟨hrd, hwr0, fun v => ?_⟩
    rw [exec_qinsert_of_full (by rw [hcount, hparams, hfull]), hrd, hwr0, hcount, hfull]

end Sys2Proof.Machine
end

section
/-!
PROOF. The relay's phases (spec/41_relay_loop.md): each where it runs (O27, O28, O29, O30), their order (O26) and the
bounds of one iteration of the loop (O31).
-/
namespace Sys2Proof.Machine

open Sys2Proof

/-! ## The order of the phases (R140, R161) -/

/-- A phase that is not the current one is refused (R161). -/
theorem exec_phaseInstr_of_ne {s : State} {p : Phase} (h : s.phase ≠ p) :
    exec (phaseInstr p) s = .refused .outOfPhase := by
  cases p with
  | ingress | egress | housekeep => exact if_neg h

/-- A phase that completes was the current one and hands over to its successor (R140). -/
theorem exec_phaseInstr_phase {s t : State} {p : Phase} (h : exec (phaseInstr p) s = .next t) :
    s.phase = p ∧ t.phase = p.next := by
  cases p with
  | ingress =>
    obtain ⟨hp, ⟨-, rfl⟩ | ⟨-, u, -, rfl⟩⟩ := execIngress_next h
    · exact ⟨hp, rfl⟩
    · exact ⟨hp, rfl⟩
  | egress =>
    obtain ⟨hp, q, w, x, y, m, new, rfl, -⟩ := execEgress_frame h
    exact ⟨hp, rfl⟩
  | housekeep =>
    obtain ⟨hp, rfl⟩ := execHousekeep_next h
    exact ⟨hp, rfl⟩

/-- Every other operation leaves `phase` (R30). -/
theorem exec_phase_eq {i : Instr} {s t : State} (hi : i.isPhase = false) (h : exec i s = .next t) :
    t.phase = s.phase := by
  cases i with
  | qinit =>
    obtain ⟨-, rfl⟩ := execQinit_next h
    rfl
  | qisfull | qisempty | qcount => exact Host.Outcome.next.inj h ▸ rfl
  | qinsert v =>
    obtain ⟨-, -, rfl⟩ := execQinsert_next h
    rfl
  | qremove =>
    obtain ⟨-, -, v, n, -, rfl⟩ := execQremove_next h
    rfl
  | qpeek =>
    obtain ⟨-, v, n, -, rfl⟩ := execQpeek_next h
    rfl
  | setline =>
    obtain ⟨d, n, -, hs⟩ := execSetline_eq s
    obtain rfl := Host.Outcome.next.inj (hs.symm.trans h)
    rfl
  | ingress | egress | housekeep => cases hi

/-- Settles O26: a phase tests that it is the current one, and no other operation writes `phase`. -/
theorem phasesRunInOrderOnly : Obligations.PhasesRunInOrderOnly := by
  refine ⟨fun s p hp => ?_, fun s t p => exec_phaseInstr_phase, fun s t i => exec_phase_eq⟩
  rw [exec_phaseInstr_of_ne hp]
  exact ⟨rfl, rfl⟩

/-! ## INGRESS (R143) -/

/-- Settles O27: the phase is the current one and the test of `full` answers 1. -/
theorem ingressSkipsWhenFull : Obligations.IngressSkipsWhenFull := by
  intro s hp hc
  simp only [exec, execIngress, hp, if_pos ((isFull_eq s).mpr hc), State.endPhase]
  rfl

/-- INGRESS with room: one `ReceiveByte`, whose answer is inserted if it is a byte (R143, R146). -/
theorem exec_ingress_of_room {s : State} (hp : s.phase = .ingress) (hc : s.queue.count < s.params.capacity)
    (hw : s.queue.wr < s.params.capacity) : ∃ a x n, (∀ y ys, s.inputs.rxIn = y :: ys → a = y) ∧
      exec .ingress s = .next { s with
        queue := if isSentinel a then s.queue else s.queue.inserted s.params.capacity (receivedByte a)
        phase := .egress
        work := { s.work with rxr := x }
        inputs := { s.inputs with rxIn := s.inputs.rxIn.tail }
        trace := s.trace ++ [.receiveByte a]
        result := none
        draws := n } := by
  obtain ⟨t, ht⟩ : ∃ t, execIngress s = .next t := by
    obtain ⟨a, n, -, hr⟩ := receiveByte_spec s
    have hroom : ¬ isFull s = true := mt (isFull_eq s).mp (Nat.ne_of_lt hc)
    simp only [execIngress, if_pos hp, if_neg hroom, ingressBody, hr]
    split
    · exact ⟨_, rfl⟩
    · rw [insertByte_next (by exact Nat.ne_of_lt hc) (by exact hw)]
      exact ⟨_, rfl⟩
  obtain ⟨-, ⟨hfull, -⟩ | ⟨-, u, hu, rfl⟩⟩ := execIngress_next ht
  · exact absurd hfull (Nat.ne_of_lt hc)
  · obtain ⟨a, x, n, ha, -, rfl⟩ := ingressBody_ok hu
    exact ⟨a, x, n, ha, ht⟩

/-- Settles O28: the store after an insert is the store with one write at `wr`. -/
theorem ingressTakesAtMostOneByte : Obligations.IngressTakesAtMostOneByte := by
  intro s hp hc hw
  obtain ⟨a, x, n, ha, hexec⟩ := exec_ingress_of_room hp hc hw
  refine ⟨_, a, hexec, ha, rfl, ?_⟩
  cases hs : isSentinel a with
  | true => exact (if_pos hs).mpr rfl
  | false =>
    rw [isSentinel] at hs
    simp only [hs, Bool.false_eq_true, if_false]
    exact ⟨rfl, rfl, rfl, Memory.read_write_self .., fun i hi => Memory.read_write_ne hi ..⟩

/-! ## HOUSEKEEP (R154) -/

/-- Settles O30: the phase is the current one. -/
theorem housekeepCallsPeriodicTask : Obligations.HousekeepCallsPeriodicTask := by
  intro s hp
  simp only [exec, execHousekeep, hp, State.endPhase, periodicTask, State.record_phase]
  rfl

/-! ## EGRESS (R147) -/

/-- How many bytes EGRESS may send, after the probe's answer (R149, R152). -/
def egressLimit (s : State) (ready : Bool) : Nat :=
  if ready then min s.queue.count (s.params.chunkLimit - 1) else 0

theorem egressLimit_le_count (s : State) (ready : Bool) : egressLimit s ready ≤ s.queue.count := by
  cases ready with
  | true => exact Nat.min_le_left ..
  | false => exact Nat.zero_le _

/-- The state after EGRESS's probe of the sink (R95, R147). -/
def State.probed (s : State) (ready : Bool) (w : Working) (n : Nat) : State := { s with
  work := w
  inputs := { s.inputs with readyIn := s.inputs.readyIn.tail }
  trace := s.trace ++ [.isSendReady ready]
  draws := n }

/-- EGRESS's body is its probe, then its loop, of no pass where the sink is not ready (R147, R152). -/
theorem egressBody_eq_sendLoop (s : State) : ∃ ready w n, w.rxr = s.work.rxr ∧
    (∀ x xs, s.inputs.readyIn = x :: xs → ready = x) ∧
    egressBody s = (sendLoop (egressLimit s ready) (s.probed ready w n)).map State.retireEgress := by
  obtain ⟨ready, w, n, hw, hready, hbody⟩ := egressBody_spec s
  refine ⟨ready, w, n, hw, hready, (hbody _ rfl).trans ?_⟩
  cases ready with
  | true | false => rfl

/-- EGRESS where its body answers (R140, R147). -/
theorem exec_egress_of_body {s u : State} (hp : s.phase = .egress) (h : egressBody s = .ok u) :
    exec .egress s = .next u.endPhase := by
  simp only [exec, execEgress, if_pos hp, h]
  rfl

/-- Settles O29: the probe touches neither QUEUE nor the capacity, so the loop starts from the content of `s`. -/
theorem egressSendsUpToTheQuota : Obligations.EgressSendsUpToTheQuota := by
  intro s hp hq
  obtain ⟨bytes, hbytes⟩ := content_bytes hq
  obtain ⟨ready, w, n, hw, hready, hbody⟩ := egressBody_eq_sendLoop s
  obtain ⟨v, sts, hloop, hanswers, hlen, hsent, hfailed, hrxr, -, hv, hcontent⟩ :=
    sendLoop_spec (s := s.probed ready w n) _ hq (egressLimit_le_count s ready) hbytes
  rw [hloop] at hbody
  refine ⟨_, ready, bytes, sts, exec_egress_of_body hp hbody, hbytes, hready, hanswers, hlen, hsent, hfailed, ?_,
    hcontent⟩
  have hwork : v.work.rxr = s.work.rxr := hrxr.trans hw
  rw [hv]
  simp only [State.probed, State.endPhase, State.retireEgress, deadEgress, State.withWork, State.tick,
    State.withPhase, State.returns, hp, Phase.next, hwork, List.append_assoc, List.singleton_append]

/-! ## One iteration of the loop (R157) -/

/-- The events of an iteration: INGRESS's call, if it makes one, EGRESS's probe and its sends, HOUSEKEEP's call. -/
def iterationEvents (rx : Option Half) (ready : Bool) (bytes : List Byte) (sts : List Status) : List Event :=
  (rx.map Event.receiveByte).toList ++ .isSendReady ready :: List.zipWith Event.sendByte bytes sts ++ [.periodicTask]

/-- Of the sends offered, no more meet a test of their status than there are statuses that meet it. -/
theorem countP_sends_le {p : Event → Bool} {q : Status → Bool} (hpq : ∀ b st, p (.sendByte b st) = q st)
    (bytes : List Byte) (sts : List Status) : (List.zipWith Event.sendByte bytes sts).countP p ≤ sts.countP q := by
  induction bytes generalizing sts with
  | nil => exact Nat.zero_le _
  | cons b bytes ih =>
    cases sts with
    | nil => exact Nat.zero_le _
    | cons st sts =>
      rw [List.zipWith_cons_cons, List.countP_cons, List.countP_cons, hpq]
      exact Nat.add_le_add_right (ih sts) _

/-- Where every status but the last is a success, at most one is a failure (R150). -/
theorem countP_failed_le_one {sts : List Status} (h : ∀ st ∈ sts.dropLast, isSent st = true) :
    sts.countP (fun st => !isSent st) ≤ 1 := by
  obtain rfl | ⟨init, last, rfl⟩ := List.eq_nil_or_concat sts
  · exact Nat.zero_le _
  · rw [List.concat_eq_append, List.dropLast_concat] at h
    have hinit : init.countP (fun st => !isSent st) = 0 := List.countP_eq_zero.mpr fun st hst => by simp [h st hst]
    rw [List.concat_eq_append, List.countP_append, hinit, Nat.zero_add]
    exact List.countP_le_length

/-- The bounds on the calls of an iteration, one kind of event at a time (R157). -/
theorem iterationEvents_bounds (rx : Option Half) (ready : Bool) (bytes : List Byte) {sts : List Status}
    (h : ∀ st ∈ sts.dropLast, isSent st = true) :
    (iterationEvents rx ready bytes sts).countP Event.isReceive ≤ 1 ∧
    (iterationEvents rx ready bytes sts).countP Event.isProbe = 1 ∧
    (iterationEvents rx ready bytes sts).countP Event.isSend ≤ sts.length ∧
    (iterationEvents rx ready bytes sts).countP Event.isFailedSend ≤ 1 ∧
    (iterationEvents rx ready bytes sts).countP Event.isHousekeeping = 1 := by
  have hnone {p : Event → Bool} (hp : ∀ b st, p (.sendByte b st) = false) :
      (List.zipWith Event.sendByte bytes sts).countP p = 0 := by
    simpa using countP_sends_le (q := fun _ => false) hp bytes sts
  have hreceive := hnone (p := Event.isReceive) (fun _ _ => rfl)
  have hprobe := hnone (p := Event.isProbe) (fun _ _ => rfl)
  have hhousekeep := hnone (p := Event.isHousekeeping) (fun _ _ => rfl)
  have hsend := countP_sends_le (p := Event.isSend) (q := fun _ => true) (fun _ _ => rfl) bytes sts
  have hfailed := countP_sends_le (p := Event.isFailedSend) (fun _ _ => rfl) bytes sts
  rw [List.countP_true] at hsend
  replace hfailed := hfailed.trans (countP_failed_le_one h)
  cases rx with
  | none | some a =>
    simp [iterationEvents, -List.countP_eq_zero, List.countP_cons, hreceive, hprobe, hhousekeep, Event.isReceive,
      Event.isProbe, Event.isHousekeeping, Event.isSend, Event.isFailedSend, hsend, hfailed]

/-- INGRESS completes on a queue that meets its invariants, with at most one call, and `count` stays or rises by 1
(R143, R157). -/
theorem exec_ingress_answers {s : State} (hq : QueueInv s) (hp : s.phase = .ingress) : ∃ m rx,
    exec .ingress s = .next m ∧
    m.trace = s.trace ++ (Option.map Event.receiveByte rx).toList ∧
    s.queue.count ≤ m.queue.count ∧ m.queue.count ≤ s.queue.count + 1 := by
  obtain hfull | hroom := hq.countInRange.eq_or_lt
  · exact ⟨_, none, ingressSkipsWhenFull s hp hfull, (List.append_nil _).symm, Nat.le_refl _, Nat.le_succ _⟩
  · obtain ⟨a, x, n, -, hexec⟩ := exec_ingress_of_room hp hroom hq.wrInStore
    refine ⟨_, some a, hexec, rfl, ?_⟩
    dsimp only
    split
    · exact ⟨Nat.le_refl _, Nat.le_succ _⟩
    · exact ⟨Nat.le_succ _, Nat.le_refl _⟩

/-- Settles O31: INGRESS, then EGRESS from the state it leaves, then HOUSEKEEP; no more is sent than offered. -/
theorem iterationBounds : Obligations.IterationBounds := by
  intro s hq hp
  obtain ⟨m, rx, hm, hmtrace, hrise, hrise'⟩ := exec_ingress_answers hq hp
  obtain ⟨-, hmphase⟩ := exec_phaseInstr_phase (p := .ingress) hm
  obtain ⟨hmparams, -⟩ := exec_frame hm
  obtain ⟨u, ready, bytes, sts, hu, -, -, -, hlen, hsent, -, hueq, -⟩ :=
    egressSendsUpToTheQuota m hmphase (exec_keeps_queueInv hq hm)
  obtain ⟨-, huphase⟩ := exec_phaseInstr_phase (p := .egress) hu
  have hutrace : u.trace = m.trace ++ .isSendReady ready :: List.zipWith Event.sendByte bytes sts :=
    congrArg State.trace hueq
  have hucount : u.queue.count = m.queue.count - sts.countP isSent := congrArg (fun t => t.queue.count) hueq
  have hquota : sts.length ≤ min m.queue.count (s.params.chunkLimit - 1) := by
    rw [← hmparams]
    exact hlen.trans (by split <;> omega)
  obtain ⟨hreceive, hprobe, hsend, hfailed, hhousekeep⟩ := iterationEvents_bounds rx ready bytes hsent
  have hall : execAll [.ingress, .egress, .housekeep] s =
      .next { u with phase := .ingress, trace := u.trace ++ [.periodicTask], result := none } := by
    simp only [execAll, hm, hu, housekeepCallsPeriodicTask u huphase]
  refine ⟨m, _, iterationEvents rx ready bytes sts, hm, hall, ?_, rfl, hreceive, hprobe, hsend.trans hquota, hfailed,
    hhousekeep, ?_⟩
  · simp only [hutrace, hmtrace, iterationEvents, List.append_assoc]
  · have hsentlen : sts.countP isSent ≤ sts.length := List.countP_le_length
    dsimp only
    omega

end Sys2Proof.Machine
end

section
/-!
PROOF. The step of the deployed core (spec/41_relay_loop.md R140, R214): the relay's phase or one waiting notification
(O9).
-/
namespace Sys2Proof.Machine

open Sys2Proof

/-- With no command presented the deployed core goes on by itself (R140). -/
theorem fetch_of_deployed {s : State} (hd : Deployed s) : fetch s = fetchDeployed s := by
  rw [Deployed] at hd
  rw [fetch, hd]

/-- With no notification waiting it is the relay's phase (R140). -/
theorem fetchDeployed_of_no_notice {s : State} (hn : s.inputs.notices = []) :
    fetchDeployed s = .run (phaseInstr s.phase) s := by
  rw [fetchDeployed, hn]

section

variable {s u : State} {n : Notice} {rest : List Notice} (hn : s.inputs.notices = n :: rest)

include hn

/-- At the relay's turn it is the relay's phase (R214). -/
theorem fetchDeployed_of_relay_turn (ht : takeTurn s = (.relay, u)) :
    fetchDeployed s = .run (phaseInstr u.phase) u := by
  simp only [fetchDeployed, hn, ht]

/-- At the notification's turn it is the oldest notification (R214). -/
theorem fetchDeployed_of_notice_turn (ht : takeTurn s = (.notice, u)) :
    fetchDeployed s = fetchNotice u n rest := by
  simp only [fetchDeployed, hn, ht]

end

/-- A listed turn is taken (R214). -/
theorem takeTurn_of_turns {s : State} {t : Turn} {ts : List Turn} (h : s.inputs.turns = t :: ts) :
    takeTurn s = (t, s.withInputs { s.inputs with turns := ts }) := by
  rw [takeTurn, h]

/-- What a step does with the notification it handles (R97, R98, R213). -/
def noticeOutcome (n : Notice) (rest : List Notice) (u : State) : Host.Outcome State Fault Refusal :=
  match n with
  | .lineEncodingChanged le => exec .setline { u with inputs := { u.inputs with notices := rest, le := le } }
  | .lifecycle _ => .next { u with inputs := { u.inputs with notices := rest } }

/-- A step from a good state handles the notification fetched. -/
theorem step_of_fetchNotice {s u : State} {n : Notice} {rest : List Notice} (hg : Good s)
    (hf : fetch s = fetchNotice u n rest) : step s = noticeOutcome n rest u := by
  cases n with
  | lineEncodingChanged le => exact step_of_fetch_run hg hf
  | lifecycle k => exact step_of_fetch_idle hg hf

/-- Settles O9: turn by turn, the step does what is fetched. -/
theorem deployedStepIsPhaseOrNotice : Obligations.DeployedStepIsPhaseOrNotice := by
  intro s hg hd
  have hfetch := fetch_of_deployed hd
  refine ⟨fun hn => step_of_fetch_run hg (hfetch.trans (fetchDeployed_of_no_notice hn)), fun n rest hn => ?_⟩
  have hrelay {u : State} (ht : takeTurn s = (.relay, u)) : step s = exec (phaseInstr u.phase) u :=
    step_of_fetch_run hg (hfetch.trans (fetchDeployed_of_relay_turn hn ht))
  have hnotice {u : State} (ht : takeTurn s = (.notice, u)) : step s = noticeOutcome n rest u :=
    step_of_fetchNotice hg (hfetch.trans (fetchDeployed_of_notice_turn hn ht))
  refine ⟨fun ts hts => hrelay (takeTurn_of_turns hts), fun ts hts => hnotice (takeTurn_of_turns hts),
    fun hts => ?_⟩
  obtain ⟨t, ts, hcons, -⟩ | ⟨-, ht⟩ | ⟨k, -, ht⟩ := takeTurn_cases s
  · cases hts.symm.trans hcons
  · exact .inl (hnotice ht)
  · exact .inr ⟨k, hrelay ht⟩

end Sys2Proof.Machine
end

section
/-!
PROOF. Line encoding (spec/42_line_encoding.md R173 to R184): the mapping of MODE's groups (O33), the bracket of the
default divisor (O37), SETLINE's four writes (O38) and what ENABLE holds between them (O39), and the encoding of R184 (O40).
-/
namespace Sys2Proof.Machine

open Sys2Proof

/-! ## The groups of MODE (R174, R175, R176) -/

theorem parityBits_odd (p : Params) : parityBits p 1 = p.mParOdd := rfl

theorem parityBits_even (p : Params) : parityBits p 2 = p.mParEven := rfl

theorem parityBits_other (p : Params) {v : Byte} (hodd : v ≠ 1) (heven : v ≠ 2) : parityBits p v = 0 := by
  rw [parityBits, if_neg hodd, if_neg heven]

theorem stopBits_two (p : Params) : stopBits p 2 = p.mStop2 := rfl

theorem stopBits_other (p : Params) {v : Byte} (htwo : v ≠ 2) : stopBits p v = 0 := if_neg htwo

theorem dataBits_six (p : Params) : dataBits p 6 = p.mData6 := rfl

theorem dataBits_seven (p : Params) : dataBits p 7 = p.mData7 := rfl

theorem dataBits_eight (p : Params) : dataBits p 8 = p.mData6 ||| p.mData7 := rfl

theorem dataBits_other (p : Params) {v : Byte} (h6 : v ≠ 6) (h7 : v ≠ 7) (h8 : v ≠ 8) : dataBits p v = 0 := by
  rw [dataBits, if_neg h6, if_neg h7, if_neg h8]

/-- Settles O33: the value of each group at each value of its field. -/
theorem modeGroupsFollowTheMapping : Obligations.ModeGroupsFollowTheMapping :=
  ⟨fun _ _ => rfl, fun p _ => ⟨parityBits_odd p, parityBits_even p, parityBits_other p, stopBits_two p, stopBits_other p,
    dataBits_six p, dataBits_seven p, dataBits_eight p, dataBits_other p⟩⟩

/-- MODE at odd parity, one stop bit and eight data bits (R184). -/
theorem modeOf_odd_one_eight (p : Params) {le : LineEncoding} (hparity : le.parity = 1) (hstop : le.stop = 0)
    (hdata : le.databits = 8) : modeOf p le = p.mParOdd ||| p.mData6 ||| p.mData7 := by
  have hone : stopBits p 0 = 0#8 := stopBits_other p (by decide)
  rw [modeOf, hparity, hstop, hdata, parityBits_odd, hone, dataBits_eight, BitVec.or_zero, BitVec.or_assoc]

/-! ## The default divisor (R180) -/

/-- The divisor is one less than the rounded quotient. -/
theorem usartDivisor_eq_some_iff {fClk baud d : Nat} :
    usartDivisor fClk true baud = some d ↔ baud ≠ 0 ∧ (fClk / 8 + baud / 2) / baud = d + 1 := by
  by_cases hbaud : baud = 0
  · simp [usartDivisor, hbaud]
  · cases hq : (fClk / 8 + baud / 2) / baud with
    | zero => simp [usartDivisor, hbaud, hq]
    | succ q => simp [usartDivisor, hbaud, hq]

/-- There is no divisor at baud 0 and where the rounded quotient is 0. -/
theorem usartDivisor_eq_none_iff {fClk baud : Nat} :
    usartDivisor fClk true baud = none ↔ baud = 0 ∨ (fClk / 8 + baud / 2) / baud = 0 := by
  by_cases hbaud : baud = 0
  · simp [usartDivisor, hbaud]
  · simp [usartDivisor, hbaud]

/-- Settles O37: the rounded quotient is the one number whose multiples of the baud rate bracket the dividend. -/
theorem defaultDivisorBracketsTheClock : Obligations.DefaultDivisorBracketsTheClock := by
  intro fClk baud d
  constructor
  · rw [usartDivisor_eq_some_iff]
    refine and_congr_right fun hbaud => ?_
    have hpos := Nat.pos_of_ne_zero hbaud
    rw [← Nat.le_div_iff_mul_le hpos, ← Nat.div_lt_iff_lt_mul hpos]
    omega
  · rw [usartDivisor_eq_none_iff, Nat.div_eq_zero_iff, or_self_left]

/-! ## SETLINE (R177) -/

/-- Where `DivisorOf` has a value SETLINE writes its low 16 bits and draws nothing (R179). -/
theorem divisorValue_of_divisorOf {s : State} {baud : BitVec 32} {x : Nat}
    (hx : divisorOf s.params.divisor true baud.toNat = some x) : divisorValue s baud = (BitVec.ofNat 16 x, s) := by
  simp only [divisorValue, Config.doubleSpeed, hx]

/-- Settles O38: SETLINE in one equation, and the divisor where it has a value. -/
theorem setlineWritesFourRegistersInOrder : Obligations.SetlineWritesFourRegistersInOrder := by
  intro s
  obtain ⟨d, n, hvalue, hs⟩ := execSetline_eq s
  refine ⟨_, d, hs, fun x hx => ?_, rfl⟩
  obtain ⟨rfl, hstate⟩ := Prod.mk.inj (hvalue.symm.trans (divisorValue_of_divisorOf hx))
  exact ⟨BitVec.toNat_ofNat x 16, (congrArg State.draws hstate :)⟩

/-- Settles O39: the second and the third write leave ENABLE as the first has set it. -/
theorem registersChangeOnlyWhileDisabled : Obligations.RegistersChangeOnlyWhileDisabled := by
  intro p d m l
  refine ⟨fun k h1 h3 => ?_, fun k w hk hw => ?_, rfl⟩
  · obtain rfl | rfl | rfl : k = 1 ∨ k = 2 ∨ k = 3 := by omega
    all_goals rfl
  · match k with
    | 0 | 3 =>
      obtain rfl := Option.some.inj hk
      simp at hw
    | 1 => exact .inl rfl
    | 2 => exact .inr rfl
    | k + 4 => simp [lineWrites] at hk

/-- The last event of a SETLINE enables the transceiver (R177). -/
theorem reconfigured_trace_getLast? (s : State) (d : Nat) :
    (s.reconfigured d).trace.getLast? = some (.regWrite (.enable (enRun s.params))) := by
  simp [State.reconfigured, setlineEvents, lineWrites]

/-- Settles O40: the state SETLINE leaves, with MODE at this encoding. -/
theorem oddEightEncodingMapsAsStated : Obligations.OddEightEncodingMapsAsStated := by
  intro s x hparity hstop hdata hx
  have hmode := modeOf_odd_one_eight s.params hparity hstop hdata
  refine ⟨s.reconfigured x, execSetline_eq_reconfigured hx, hmode, rfl, rfl, reconfigured_trace_getLast? s x, fun hp => ?_⟩
  refine hmode.trans ?_
  rw [hp]
  decide

end Sys2Proof.Machine
end

section
/-!
PROOF. Faults and refusals (spec/60_exceptions.md): the deployed core never stops (O43, R200, R206), a stop is final (O46,
R203, R207), a reserved word is refused (O6, R208), and the queue's two contract violations fault (O17, R204, R205).
-/
namespace Sys2Proof.Machine

open Sys2Proof

/-! ## The deployed core (R200, R206) -/

/-- No operation presents a command (R80). -/
theorem Deployed.of_exec {i : Instr} {s t : State} (hd : Deployed s) (h : exec i s = .next t) : Deployed t := by
  obtain ⟨-, -, -, -, -, -, hprogram, -⟩ := exec_frame h
  exact hprogram.trans hd

/-- The current phase completes on a queue that meets its invariants: INGRESS skips a full one, and EGRESS removes no more
bytes than are queued (R145, R149). -/
theorem exec_current_phase_answers {s : State} (hq : QueueInv s) : ∃ t, exec (phaseInstr s.phase) s = .next t := by
  cases hp : s.phase with
  | ingress =>
    obtain ⟨t, -, ht, -⟩ := exec_ingress_answers hq hp
    exact ⟨t, ht⟩
  | egress =>
    obtain ⟨t, -, -, -, ht, -⟩ := egressSendsUpToTheQuota s hp hq
    exact ⟨t, ht⟩
  | housekeep => exact ⟨_, housekeepCallsPeriodicTask s hp⟩

/-- The relay's turn completes and presents no command (R140). -/
theorem relay_turn_answers {u : State} (hq : QueueInv u) (hd : Deployed u) :
    ∃ t, exec (phaseInstr u.phase) u = .next t ∧ Deployed t := by
  obtain ⟨t, ht⟩ := exec_current_phase_answers hq
  exact ⟨t, ht, hd.of_exec ht⟩

/-- A notification's turn completes and presents no command: SETLINE cannot stop, and a lifecycle notification is ignored
(R98, R172). -/
theorem notice_turn_answers {u : State} (hd : Deployed u) (n : Notice) (rest : List Notice) :
    ∃ t, noticeOutcome n rest u = .next t ∧ Deployed t := by
  cases n with
  | lineEncodingChanged le =>
    obtain ⟨d, m, -, ht⟩ := execSetline_eq { u with inputs := { u.inputs with notices := rest, le := le } }
    exact ⟨_, ht, hd⟩
  | lifecycle k => exact ⟨_, rfl, hd⟩

/-- A step of the deployed core has a next state and presents no command, turn by turn (R140, R214). -/
theorem step_answers_of_deployed {s : State} (hq : QueueInv s) (hg : Good s) (hd : Deployed s) :
    ∃ t, step s = .next t ∧ Deployed t := by
  obtain ⟨hphase, hwaiting⟩ := deployedStepIsPhaseOrNotice s hg hd
  cases hn : s.inputs.notices with
  | nil =>
    rw [hphase hn]
    exact relay_turn_answers hq hd
  | cons n rest =>
    obtain ⟨hrelay, hnotice, hfree⟩ := hwaiting n rest hn
    cases hts : s.inputs.turns with
    | nil =>
      obtain h | ⟨k, h⟩ := hfree hts
      · rw [h]
        exact notice_turn_answers (by exact hd) n rest
      · rw [h]
        exact relay_turn_answers (by exact hq) (by exact hd)
    | cons t ts =>
      cases t with
      | relay =>
        rw [hrelay ts hts]
        exact relay_turn_answers (by exact hq) (by exact hd)
      | notice =>
        rw [hnotice ts hts]
        exact notice_turn_answers (by exact hd) n rest

/-- Settles O43: every turn completes, and every step keeps the invariant and the record. -/
theorem deployedCoreNeverStops : Obligations.DeployedCoreNeverStops := by
  intro s hi hg hd
  obtain ⟨t, ht, hdt⟩ := step_answers_of_deployed hi.queueOk hg hd
  obtain ⟨-, -, hfaults, hrefused, -⟩ := stepsOnlyAddToTheRecord s t ht
  obtain ⟨hnofault, hnotrefused⟩ := hg
  exact ⟨t, ht, stepKeepsTheInvariant s t hi ht, ⟨hfaults.trans hnofault, hrefused.trans hnotrefused⟩, hdt⟩

/-! ## What a stop leaves (R39, R203, R207) -/

/-- `faults` with one record more holds that record and those it held (R39). -/
theorem mem_addFault {fs : List Fault} {f g : Fault} : g ∈ addFault fs f ↔ g ∈ fs ∨ g = f := by
  unfold addFault
  split
  · rename_i hf
    exact ⟨.inl, fun h => h.elim id fun hg => hg ▸ hf⟩
  · rw [List.mem_append, List.mem_singleton]

/-- What a fault leaves: its record in `faults`, an unspecified queue, and the rest as it was (R203, U5). -/
theorem stopState_fault (s : State) (f : Fault) : stopState s (.fault f) = { s with
    queue := faultedQueue s
    book := { s.book with faults := addFault s.book.faults f }
    draws := s.draws + 1 } := rfl

/-- What a refusal leaves: `refused`, and the rest as it was (R207). -/
theorem stopState_refused (s : State) (r : Refusal) :
    stopState s (.refused r) = { s with book := { s.book with refused := true } } := rfl

/-- An outcome that is no next state leaves a state that is not good. -/
theorem not_good_stopState {s : State} {o : Host.Outcome State Fault Refusal} (ho : ∀ t, o ≠ .next t) :
    ¬ Good (stopState s o) := by
  cases o with
  | next t => exact absurd rfl (ho t)
  | fault f =>
    rw [stopState_fault]
    rintro ⟨hfaults, -⟩
    exact List.ne_nil_of_mem (mem_addFault.mpr (.inr rfl)) hfaults
  | refused r =>
    rw [stopState_refused]
    rintro ⟨-, hrefused⟩
    cases hrefused

/-- Settles O46: a step that answers starts from a good state, which a stop does not leave. -/
theorem stopsAreFinal : Obligations.StopsAreFinal := by
  intro s hs
  have hstopped := not_good_stopState (s := s) hs
  exact ⟨hstopped, fun t ht => hstopped (step_next ht).1⟩

/-! ## Reserved words (R208) -/

/-- A reserved word is fetched as a refusal (R87, R208). -/
theorem fetchCommand_reserved {s : State} {w : Half} {le : Option LineEncoding} {rest : List Command} {r : Reserved}
    (h : decode w = .error r) : fetchCommand s (.word w le) rest = .refuse (.illegalOp w) := by
  simp only [fetchCommand, h]

/-- Settles O6: the word is fetched as a refusal, and a refusal leaves all but `refused`. -/
theorem reservedWordIsRefused : Obligations.ReservedWordIsRefused := by
  rintro s w le rest hg hprog ⟨r, hr⟩
  have hstep := step_of_fetch_refuse hg ((fetch_of_program hprog).trans (fetchCommand_reserved hr))
  exact ⟨hstep, congrArg (stopState s) hstep⟩

/-! ## Contract violations (R204, R205) -/

/-- QREMOVE on an empty queue (R125, R205). -/
theorem exec_qremove_of_empty {s : State} (hc : s.queue.count = 0) :
    exec .qremove s = .fault (.queueUnderflow s.queue.rd s.queue.wr) := by
  simp only [exec, execQremove, removeByte, if_pos ((isEmpty_eq s).mpr hc)]
  rfl

/-- Settles O17: each violation at its test of `count`, and what a fault leaves. -/
theorem contractViolationsFault : Obligations.ContractViolationsFault := fun s =>
  ⟨fun v hc => exec_qinsert_of_full hc v, exec_qremove_of_empty, fun _ _ _ _ => rfl, fun _ _ => rfl,
    fun f => ⟨_, stopState_fault s f, mem_addFault.mpr (.inr rfl), fun _ hg => mem_addFault.mpr (.inl hg), rfl⟩⟩

end Sys2Proof.Machine
end

section
/-!
PROOF. Hazards and fairness (spec/70_reset_and_hazards.md): with `CHUNK_LIMIT` 1 an EGRESS
sends nothing (O32, R247), and neither agent of the deployed core waits forever (O51, O52, R253).
-/
namespace Sys2Proof.Machine

open Sys2Proof

/-! ## `CHUNK_LIMIT` 1 (R247) -/

/-- With `CHUNK_LIMIT` 1 the quota is 0, whatever the sink answers (R149). -/
theorem egressLimit_of_chunkLimit_one {s : State} (hc : s.params.chunkLimit = 1) (ready : Bool) :
    egressLimit s ready = 0 := by
  simp [egressLimit, hc]

/-- Settles O32: the loop makes no pass, so the probe is all that EGRESS does. -/
theorem chunkLimitOneStalls : Obligations.ChunkLimitOneStalls := by
  intro s hp hc
  obtain ⟨ready, w, n, -, -, hbody⟩ := egressBody_eq_sendLoop s
  rw [egressLimit_of_chunkLimit_one hc ready] at hbody
  exact ⟨_, ready, exec_egress_of_body hp hbody, rfl, rfl⟩

/-! ## Steps of the running core (R140, R214) -/

/-- The deployed core in a run that goes on (R200). -/
structure Running (s : State) : Prop where
  inv : Inv s
  good : Good s
  deployed : Deployed s

/-- A running core steps and goes on (R200, R206). -/
theorem Running.steps_on {s : State} (hr : Running s) : ∃ t, step s = .next t ∧ Running t := by
  obtain ⟨t, ht, hi, hg, hd⟩ := deployedCoreNeverStops s hr.inv hr.good hr.deployed
  exact ⟨t, ht, hi, hg, hd⟩

/-- A first step and the steps that follow it are a run. -/
theorem stepAll_succ_of_step {s t : State} {k : Nat} (h : step s = .next t) : stepAll (k + 1) s = stepAll k t := by
  rw [stepAll, h]

/-- Taking a turn changes the turns and the counter of free values only (R214). -/
theorem takeTurn_frame {s v : State} {turn : Turn} (ht : takeTurn s = (turn, v)) :
    ∃ ts m, v = { s with inputs := { s.inputs with turns := ts }, draws := m } := by
  obtain ⟨t, ts, -, h⟩ | ⟨-, h⟩ | ⟨k, -, h⟩ := takeTurn_cases s
  all_goals
    obtain ⟨-, rfl⟩ := Prod.mk.inj (h.symm.trans ht)
    exact ⟨_, _, rfl⟩

theorem phaseInstr_ne_setline (p : Phase) : phaseInstr p ≠ .setline := by
  cases p <;> simp [phaseInstr]

section

variable {s v : State} {n : Notice} {rest : List Notice} (hr : Running s) (hn : s.inputs.notices = n :: rest)

include hr hn

/-- At the relay's turn the step is the relay's phase (R214). -/
theorem Running.step_of_relay_turn (ht : takeTurn s = (.relay, v)) : step s = exec (phaseInstr s.phase) v := by
  have hphase : v.phase = s.phase := by
    obtain ⟨ts, m, rfl⟩ := takeTurn_frame ht
    rfl
  rw [← hphase]
  exact step_of_fetch_run hr.good ((fetch_of_deployed hr.deployed).trans (fetchDeployed_of_relay_turn hn ht))

/-- At the notification's turn the step handles the oldest notification (R214). -/
theorem Running.step_of_notice_turn (ht : takeTurn s = (.notice, v)) : step s = noticeOutcome n rest v :=
  step_of_fetchNotice hr.good ((fetch_of_deployed hr.deployed).trans (fetchDeployed_of_notice_turn hn ht))

/-- The relay's turn leaves the line registers and the notifications (R41, R214). -/
theorem Running.relay_turn_frame (ht : takeTurn s = (.relay, v)) : ∃ t, step s = .next t ∧ Running t ∧
    t.line = s.line ∧ t.inputs.notices = s.inputs.notices ∧ t.inputs.turns = v.inputs.turns := by
  obtain ⟨t, hstep, hrt⟩ := hr.steps_on
  have hexec := (hr.step_of_relay_turn hn ht).symm.trans hstep
  have hline := exec_line (phaseInstr_ne_setline s.phase) hexec
  obtain ⟨-, -, -, -, -, -, -, hnotices, hturns, -⟩ := exec_frame hexec
  obtain ⟨ts, m, rfl⟩ := takeTurn_frame ht
  exact ⟨t, hstep, hrt, hline, hnotices, hturns⟩

end

/-! ## A pending notification is handled (R253) -/

/-- The operation from `v` with which a notification is handled, and the state it leaves: SETLINE with the snapshot, or
nothing (R97, R98). -/
def Handles (n : Notice) (v t : State) : Prop :=
  match n with
  | .lineEncodingChanged le => v.inputs.le = le ∧ exec .setline v = .next t
  | .lifecycle _ => t = v

/-- A handled notification has left the list, and QUEUE and `phase` stay (R41, R213). -/
theorem noticeOutcome_next {n : Notice} {rest : List Notice} {u t : State} (h : noticeOutcome n rest u = .next t) :
    t.queue = u.queue ∧ t.phase = u.phase ∧ t.inputs.notices = rest ∧ ∃ x, Handles n { u with inputs := x } t := by
  cases n with
  | lineEncodingChanged le =>
    have h : exec .setline { u with inputs := { u.inputs with notices := rest, le := le } } = .next t := h
    obtain ⟨-, -, -, -, -, -, -, hnotices, -⟩ := exec_frame h
    have hqueue := exec_queue_eq (by simp) h
    have hphase := exec_phase_eq rfl h
    exact ⟨hqueue, hphase, hnotices, _, rfl, h⟩
  | lifecycle k =>
    obtain rfl := Host.Outcome.next.inj h
    exact ⟨rfl, rfl, rfl, _, rfl⟩

/-- After some steps that leave the line registers and the notifications it is the oldest notification's turn. -/
def ReachesNoticeTurn (s : State) : Prop :=
  ∃ k u v, stepAll k s = .next u ∧ Running u ∧ u.line = s.line ∧ u.inputs.notices = s.inputs.notices ∧
    takeTurn u = (.notice, v)

section

variable {s : State} {n : Notice} {rest : List Notice} (hr : Running s) (hn : s.inputs.notices = n :: rest)

include hr

/-- The notification's turn has come. -/
theorem Running.reaches_of_notice_turn {v : State} (ht : takeTurn s = (.notice, v)) : ReachesNoticeTurn s :=
  ⟨0, s, v, rfl, hr, rfl, rfl, ht⟩

include hn

/-- The relay's turn puts the notification's turn off by one step. -/
theorem Running.reaches_of_relay_turn {v : State} (ht : takeTurn s = (.relay, v))
    (hnext : ∀ {t}, Running t → t.inputs.notices = n :: rest → t.inputs.turns = v.inputs.turns → ReachesNoticeTurn t) :
    ReachesNoticeTurn s := by
  obtain ⟨t, hstep, hrt, hline, hnotices, hturns⟩ := hr.relay_turn_frame hn ht
  obtain ⟨k, u, w, hrun, hru, hlineu, hnoticesu, htu⟩ := hnext hrt (hnotices.trans hn) hturns
  exact ⟨k + 1, u, w, (stepAll_succ_of_step hstep).trans hrun, hru, hlineu.trans hline, hnoticesu.trans hnotices, htu⟩

/-- A drawn wait ends, by induction on its length (R253). -/
theorem Running.reaches_of_turnsLeft {k : Nat} (hts : s.inputs.turns = turnsLeft k) : ReachesNoticeTurn s := by
  induction k generalizing s with
  | zero => exact hr.reaches_of_notice_turn (takeTurn_of_turns hts)
  | succ k ih => exact hr.reaches_of_relay_turn hn (takeTurn_of_turns hts) fun hrt hnt => ih hrt hnt

/-- Whatever turns are listed, the notification's comes: among them, or when the wait drawn at their end is over (R253). -/
theorem Running.reachesNoticeTurn : ReachesNoticeTurn s := by
  generalize hts : s.inputs.turns = ts
  induction ts generalizing s with
  | nil =>
    obtain ⟨t, ts, hcons, -⟩ | ⟨-, ht⟩ | ⟨k, -, ht⟩ := takeTurn_cases s
    · cases hts.symm.trans hcons
    · exact hr.reaches_of_notice_turn ht
    · exact hr.reaches_of_relay_turn hn ht fun hrt hnt => hrt.reaches_of_turnsLeft hnt
  | cons turn ts ih =>
    have ht := takeTurn_of_turns hts
    cases turn with
    | relay => exact hr.reaches_of_relay_turn hn ht fun hrt hnt => ih hrt hnt
    | notice => exact hr.reaches_of_notice_turn ht

end

/-- Settles O51: the notification's turn comes, and its step handles the oldest one. -/
theorem notificationIsEventuallyHandled : Obligations.NotificationIsEventuallyHandled := by
  intro s n rest hi hg hd hn
  obtain ⟨k, u, v, hrun, hru, hline, hnotices, ht⟩ := Running.reachesNoticeTurn ⟨hi, hg, hd⟩ hn
  obtain ⟨t, hstep, hit, hgt, hdt⟩ := hru.steps_on
  have houtcome := (hru.step_of_notice_turn (hnotices.trans hn) ht).symm.trans hstep
  obtain ⟨-, -, hrest, x, hhandles⟩ := noticeOutcome_next houtcome
  obtain ⟨ts, m, rfl⟩ := takeTurn_frame ht
  exact ⟨k, u, _, t, hrun, hnotices.trans hn, hline, hstep, hrest, hit, hgt, hdt, rfl, hhandles⟩

/-! ## The relay is scheduled again (R253) -/

/-- The relay's phase is the next step once the notifications before it are handled, each of which leaves QUEUE and
`phase`: by induction on those that wait. -/
theorem Running.relay_turn_within {s : State} (hr : Running s) : ∃ k u x m, k ≤ s.inputs.notices.length ∧
    stepAll k s = .next u ∧ Running u ∧ u.queue = s.queue ∧ u.phase = s.phase ∧
    step u = exec (phaseInstr s.phase) { u with inputs := x, draws := m } := by
  generalize hn : s.inputs.notices = ns
  induction ns generalizing s with
  | nil =>
    have hfetch := (fetch_of_deployed hr.deployed).trans (fetchDeployed_of_no_notice hn)
    exact ⟨0, s, s.inputs, s.draws, le_rfl, rfl, hr, rfl, rfl, step_of_fetch_run hr.good hfetch⟩
  | cons n rest ih =>
    rcases hturn : takeTurn s with ⟨turn, v⟩
    obtain ⟨ts, m, rfl⟩ := takeTurn_frame hturn
    cases turn with
    | relay => exact ⟨0, s, _, m, Nat.zero_le _, rfl, hr, rfl, rfl, hr.step_of_relay_turn hn hturn⟩
    | notice =>
      obtain ⟨t, hstep, hrt⟩ := hr.steps_on
      have houtcome := (hr.step_of_notice_turn hn hturn).symm.trans hstep
      obtain ⟨hqueue, hphase, hrest, -⟩ := noticeOutcome_next houtcome
      obtain ⟨k, u, x, m', hk, hrun, hru, hqueueu, hphaseu, hrelay⟩ := ih hrt hrest
      rw [hphase] at hphaseu hrelay
      exact ⟨k + 1, u, x, m', Nat.succ_le_succ hk, (stepAll_succ_of_step hstep).trans hrun, hru,
        hqueueu.trans hqueue, hphaseu, hrelay⟩

/-- Settles O52: the relay's phase comes after the waiting notifications at the latest, completes and hands over. -/
theorem relayIsScheduledAgain : Obligations.RelayIsScheduledAgain := by
  intro s hi hg hd
  obtain ⟨k, u, x, m, hk, hrun, hru, hqueue, hphase, hrelay⟩ := Running.relay_turn_within ⟨hi, hg, hd⟩
  obtain ⟨t, hstep, hit, hgt, hdt⟩ := hru.steps_on
  have hexec := hrelay.symm.trans hstep
  exact ⟨k, u, _, t, hk, hrun, hqueue, hphase, hstep, rfl, hexec, (exec_phaseInstr_phase hexec).2, hit, hgt, hdt⟩

end Sys2Proof.Machine
end
